-- ==== Sys2Proof/Word.lean ====
section
/-! DEFINITION. The words of framebuffer_column_mux: bytes, 16-bit serial words, 40-bit command headers, and the level of a pin. -/

namespace Sys2Proof

/-- A byte: 8 bits, read as an unsigned value 0..255 (00_scope.md R10). -/
abbrev Byte := BitVec 8

/-- A serial word: 16 bits, register address in bits 15:8 and data in bits 7:0 (30_encoding.md R80). -/
abbrev SerialWord := BitVec 16

/-- A command header: `op` 39:32, `a` 31:16, `b` 15:8, `c` 7:0 (30_encoding.md R86). -/
abbrev Header := BitVec 40

/-- The level of a pin: for SELECT, low is asserted and high is deasserted (10_state.md R35). -/
inductive PinLevel where
  | low
  | high
  deriving DecidableEq, Repr

end Sys2Proof
end

