-- ==== Sys2Proof/Config.lean ====
section
/-! DEFINITION. What an implementation fixes (00_scope.md R8, R9) and the free values: constants with no body that stand for what
the spec leaves open (93_implementation_defined.md). -/

namespace Sys2Proof.Config

/-- NUM_DEVICES of the machine `State.reset` constructs. DESIGN CHOICE, unsafe (notes/assumptions/1.md): R8 gives only N ≥ 1; every
statement quantifies over N, which is a field of `State`. -/
def numDevices : Nat := 1

/-- The largest NUM_DEVICES (R8, decision D28): every in-range column index fits the signed 16-bit operand `a`. -/
def maxDevices : Nat := 4095

/-- SELECT_LINE, the bus chip-select identifier, opaque to every rule (R9). A free value: notes/assumptions/2.md. -/
opaque selectLine : Nat

/-- The level of SELECT after reset, unspecified until INITIALIZE (10_state.md R35, U15). A free value: notes/assumptions/3.md. -/
opaque selectAtReset : Bool

/-- CHAR_WIDTH_RESET, the OPEN value of `charWidth` after reset (10_state.md R28, U13). A free value: notes/assumptions/4.md. -/
opaque charWidthReset : Byte

/-- FONT: byte `column` of the glyph of character `code`, contents OPEN (R9, U16), where `State.font` lists none.
A free value: notes/assumptions/5.md. -/
opaque fontByte (code column : Nat) : Byte

/-- The value one read of a framebuffer byte that nothing has written gives (10_state.md R21, U12): `draw` numbers the inputs the
machine has taken, so two reads need not agree. A free value: notes/assumptions/6.md. -/
opaque freeColumn (draw column : Nat) : Byte

/-- A register of a driver chip whose value the spec leaves open (U4, U9, U10, and before the first frame): `draw` numbers the
inputs taken, `event` the serial events emitted, `register` is the chip's register address. A free value: notes/assumptions/7.md. -/
opaque freeChipByte (draw event device register : Nat) : Byte

/-- The 16 bits a chip's stage of the shift register holds where the spec leaves them open (10_state.md R38, U10). A free value:
notes/assumptions/7.md. -/
opaque freeStage (draw event device : Nat) : SerialWord

/-- REG_ROW_BASE: the address of the first row-data register (R9, 30_encoding.md R82). -/
def regRowBase : Byte := 0x01

/-- REG_DECODE_MODE (30_encoding.md R83). PRESUMED by the spec (GK1), unsafe: notes/assumptions/8.md. -/
def regDecodeMode : Byte := 0x09

/-- REG_INTENSITY (30_encoding.md R83). PRESUMED by the spec (GK1), unsafe: notes/assumptions/8.md. -/
def regIntensity : Byte := 0x0A

/-- REG_SCAN_LIMIT (30_encoding.md R83). PRESUMED by the spec (GK1), unsafe: notes/assumptions/8.md. -/
def regScanLimit : Byte := 0x0B

/-- REG_SHUTDOWN (30_encoding.md R83). PRESUMED by the spec (GK1), unsafe: notes/assumptions/8.md. -/
def regShutdown : Byte := 0x0C

/-- REG_DISPLAY_TEST (30_encoding.md R83). PRESUMED by the spec (GK1), unsafe: notes/assumptions/8.md. -/
def regDisplayTest : Byte := 0x0F

/-- A payload holds fewer bytes than this (30_encoding.md R87: n < 65536). -/
def payloadLimit : Nat := 65536

end Sys2Proof.Config
end

