-- ==== Sys2Proof/Syntax.lean ====
section
/-! DEFINITION. The instructions: one constructor per row of spec/opcode_table.json. The first 18 are the host's commands (rows of
format CMD40, 30_encoding.md R88); the last 14 are the serial words a driver chip acts on (rows of format W16, R82 to R84). -/

namespace Sys2Proof

/-- The four alignment modes (10_state.md R30, encoding 30_encoding.md R90). -/
inductive AlignmentMode where
  | left
  | leftEnd
  | right
  | rightEnd
  deriving DecidableEq, Repr

/-- The direction OSCILLATE_TEXT steps the cursor in: +1 or −1 (10_state.md R33). -/
inductive Direction where
  | plus
  | minus
  deriving DecidableEq, Repr

/-- Operands as 30_encoding.md R89 assembles them: `col`, `x`, `device` are the integers −32768..32767, `row` is 0..7, the other
operands are bytes, a text or a bitmap is its payload (R87). -/
inductive Instr where
  /-- CLEAR (R110) -/
  | clear
  /-- SET_PIXEL (R111) -/
  | setPixel (col : Int) (row : Fin 8)
  /-- SET_COLUMN (R112) -/
  | setColumn (col : Int) (value : Byte)
  /-- INITIALIZE (R125) -/
  | initializeChain
  /-- WRITE_REGISTER (R121) -/
  | writeRegister (device : Int) (register value : Byte)
  /-- WRITE_REGISTER_ALL (R122) -/
  | writeRegisterAll (register value : Byte)
  /-- SET_INTENSITY (R123) -/
  | setIntensity (level : Byte)
  /-- COMMIT (R126) -/
  | commit
  /-- SET_CHAR_WIDTH (R141) -/
  | setCharWidth (width : Byte)
  /-- SET_TEXT_ALIGNMENT (R142) -/
  | setTextAlignment (mode : AlignmentMode)
  /-- SET_TEXT (R143) -/
  | setText (text : List Byte)
  /-- SET_NEXT_TEXT (R144) -/
  | setNextText (text : List Byte)
  /-- SET_ROTATE (R145) -/
  | setRotate (enabled : Bool)
  /-- SCROLL_TEXT_RIGHT (R147) -/
  | scrollTextRight
  /-- SCROLL_TEXT_LEFT (R148) -/
  | scrollTextLeft
  /-- OSCILLATE_TEXT (R149) -/
  | oscillateText
  /-- DRAW_TEXT (R163) -/
  | drawText
  /-- SET_CUSTOM_CHAR (R164) -/
  | setCustomChar (x : Int) (width : Byte) (data : List Byte)
  /-- W_NOOP (R84) -/
  | wNoop
  /-- W_ROW1 (R82) -/
  | wRow1 (data : Byte)
  /-- W_ROW2 (R82) -/
  | wRow2 (data : Byte)
  /-- W_ROW3 (R82) -/
  | wRow3 (data : Byte)
  /-- W_ROW4 (R82) -/
  | wRow4 (data : Byte)
  /-- W_ROW5 (R82) -/
  | wRow5 (data : Byte)
  /-- W_ROW6 (R82) -/
  | wRow6 (data : Byte)
  /-- W_ROW7 (R82) -/
  | wRow7 (data : Byte)
  /-- W_ROW8 (R82) -/
  | wRow8 (data : Byte)
  /-- W_DECODE_MODE (R83) -/
  | wDecodeMode (data : Byte)
  /-- W_INTENSITY (R83) -/
  | wIntensity (data : Byte)
  /-- W_SCAN_LIMIT (R83) -/
  | wScanLimit (data : Byte)
  /-- W_SHUTDOWN (R83) -/
  | wShutdown (data : Byte)
  /-- W_DISPLAY_TEST (R83) -/
  | wDisplayTest (data : Byte)
  deriving DecidableEq, Repr

end Sys2Proof
end

