-- ==== Sys2Proof/WellFormed.lean ====
section
/-! DEFINITION. Which instructions an encoding can hold (30_encoding.md R87, R89). -/

namespace Sys2Proof

/-- An operand carried by field `a`: `sext_16` gives the integers −32768..32767 (R89). -/
def fitsOperandA (v : Int) : Bool :=
  decide (-32768 ≤ v) && decide (v ≤ 32767)

/-- A payload has fewer than 65536 bytes (R87). -/
def fitsPayload (p : List Byte) : Bool :=
  decide (p.length < Config.payloadLimit)

/-- The instruction's operands are values its encoding can hold. The other operands are bounded by their types. -/
def Instr.wellFormed : Instr → Bool
  | .clear => true
  | .setPixel col _ => fitsOperandA col
  | .setColumn col _ => fitsOperandA col
  | .initializeChain => true
  | .writeRegister device _ _ => fitsOperandA device
  | .writeRegisterAll _ _ => true
  | .setIntensity _ => true
  | .commit => true
  | .setCharWidth _ => true
  | .setTextAlignment _ => true
  | .setText text => fitsPayload text
  | .setNextText text => fitsPayload text
  | .setRotate _ => true
  | .scrollTextRight => true
  | .scrollTextLeft => true
  | .oscillateText => true
  | .drawText => true
  | .setCustomChar x _ data => fitsOperandA x && fitsPayload data
  | .wNoop => true
  | .wRow1 _ => true
  | .wRow2 _ => true
  | .wRow3 _ => true
  | .wRow4 _ => true
  | .wRow5 _ => true
  | .wRow6 _ => true
  | .wRow7 _ => true
  | .wRow8 _ => true
  | .wDecodeMode _ => true
  | .wIntensity _ => true
  | .wScanLimit _ => true
  | .wShutdown _ => true
  | .wDisplayTest _ => true

end Sys2Proof
end

