-- ==== Sys2Proof/Decode.lean ====
section
/-! DEFINITION. The two encodings of the spec, read and written: command headers (CMD40, 30_encoding.md R86 to R93) and serial words
(W16, R80 to R84). Decoding is total and rejects by name. -/

namespace Sys2Proof

/-- What is presented to the machine: a command header with its payload (R86, R87), or one serial word at a chip (R80). -/
inductive Packet where
  | command (header : Header) (payload : List Byte)
  | word (w : SerialWord)
  deriving DecidableEq, Repr

/-- What decoding answers: an instruction, or one of three rejections by name. -/
inductive Decoded where
  | instr (i : Instr)
  /-- an opcode that no row of R88 has (R91) -/
  | reserved (op : Byte)
  /-- a serial word that no W16 row matches (93_implementation_defined.md U9, 20_memory.md R68) -/
  | unmapped (w : SerialWord)
  /-- a payload of 65536 bytes or more, which R87 excludes -/
  | payloadTooLong
  deriving DecidableEq, Repr

/-! ### Serial words -/

/-- `Word(reg, data)` = {reg, data} (R80). -/
def serialWord (reg data : Byte) : SerialWord := reg ++ data

/-- The register address of a serial word, bits 15:8 (R80). -/
def regField (w : SerialWord) : Byte := w.extractLsb' 8 8

/-- The data byte of a serial word, bits 7:0 (R80). -/
def dataField (w : SerialWord) : Byte := w.extractLsb' 0 8

/-- The W16 row a serial word matches. -/
def decodeSerial (w : SerialWord) : Decoded :=
  let reg := regField w
  let data := dataField w
  if w = 0 then .instr .wNoop
  else if reg = Config.regRowBase then .instr (.wRow1 data)
  else if reg = Config.regRowBase + 1 then .instr (.wRow2 data)
  else if reg = Config.regRowBase + 2 then .instr (.wRow3 data)
  else if reg = Config.regRowBase + 3 then .instr (.wRow4 data)
  else if reg = Config.regRowBase + 4 then .instr (.wRow5 data)
  else if reg = Config.regRowBase + 5 then .instr (.wRow6 data)
  else if reg = Config.regRowBase + 6 then .instr (.wRow7 data)
  else if reg = Config.regRowBase + 7 then .instr (.wRow8 data)
  else if reg = Config.regDecodeMode then .instr (.wDecodeMode data)
  else if reg = Config.regIntensity then .instr (.wIntensity data)
  else if reg = Config.regScanLimit then .instr (.wScanLimit data)
  else if reg = Config.regShutdown then .instr (.wShutdown data)
  else if reg = Config.regDisplayTest then .instr (.wDisplayTest data)
  else .unmapped w

/-! ### Command headers -/

/-- Field `op`, bits 39:32 (R86). -/
def opField (h : Header) : Byte := h.extractLsb' 32 8

/-- Field `a`, bits 31:16, read by `sext_16` (R86, R89). -/
def aField (h : Header) : Int := (h.extractLsb' 16 16).toInt

/-- Field `b`, bits 15:8 (R86). -/
def bField (h : Header) : Byte := h.extractLsb' 8 8

/-- Field `c`, bits 7:0 (R86). -/
def cField (h : Header) : Byte := h.extractLsb' 0 8

/-- `row` of SET_PIXEL, bits 10:8 (R89). -/
def rowField (h : Header) : Fin 8 := (h.extractLsb' 8 3).toFin

/-- The alignment mode of a 2-bit number, in the order of R90. -/
def modeOfCode : Nat → AlignmentMode
  | 0 => .left
  | 1 => .leftEnd
  | 2 => .right
  | _ => .rightEnd

/-- `mode` of SET_TEXT_ALIGNMENT, bits 9:8 (R89, R90). -/
def modeField (h : Header) : AlignmentMode := modeOfCode (h.extractLsb' 8 2).toNat

/-- `enabled` of SET_ROTATE, bit 8 (R89). -/
def enabledField (h : Header) : Bool := h.getLsbD 8

/-- A command whose payload is an operand: the payload has fewer than 65536 bytes (R87). -/
def withPayload (p : List Byte) (i : Instr) : Decoded :=
  if fitsPayload p then .instr i else .payloadTooLong

/-- The row of R88 a header selects; a field the row does not use is ignored, and so is a payload the row does not take. -/
def decodeCommand (h : Header) (p : List Byte) : Decoded :=
  match (opField h).toNat with
  | 0x10 => .instr .clear
  | 0x11 => .instr (.setPixel (aField h) (rowField h))
  | 0x12 => .instr (.setColumn (aField h) (cField h))
  | 0x20 => .instr .initializeChain
  | 0x21 => .instr (.writeRegister (aField h) (bField h) (cField h))
  | 0x22 => .instr (.writeRegisterAll (bField h) (cField h))
  | 0x23 => .instr (.setIntensity (cField h))
  | 0x24 => .instr .commit
  | 0x30 => .instr (.setCharWidth (bField h))
  | 0x31 => .instr (.setTextAlignment (modeField h))
  | 0x32 => withPayload p (.setText p)
  | 0x33 => withPayload p (.setNextText p)
  | 0x34 => .instr (.setRotate (enabledField h))
  | 0x35 => .instr .scrollTextRight
  | 0x36 => .instr .scrollTextLeft
  | 0x37 => .instr .oscillateText
  | 0x40 => .instr .drawText
  | 0x41 => withPayload p (.setCustomChar (aField h) (bField h) p)
  | _ => .reserved (opField h)

/-- Decoding of either format; total, with every rejection named. -/
def decode : Packet → Decoded
  | .command h p => decodeCommand h p
  | .word w => decodeSerial w

/-! ### The encoder, written from the same tables -/

/-- A header from its four fields (R86). -/
def header (op : Byte) (a : BitVec 16) (b c : Byte) : Header := op ++ a ++ b ++ c

/-- The `a` field that `sext_16` reads as the integer `v` (R89). -/
def aOperand (v : Int) : BitVec 16 := BitVec.ofInt 16 v

/-- The number of an alignment mode (R90). -/
def modeCode : AlignmentMode → Byte
  | .left => 0
  | .leftEnd => 1
  | .right => 2
  | .rightEnd => 3

/-- A command without payload. -/
def plainCommand (op : Byte) (a : BitVec 16) (b c : Byte) : Packet := .command (header op a b c) []

/-- The header and payload, or the serial word, of an instruction; unused fields are zero (R86, R88, R82 to R84). -/
def encode : Instr → Packet
  | .clear => plainCommand 0x10 0 0 0
  | .setPixel col row => plainCommand 0x11 (aOperand col) (BitVec.ofNat 8 row.val) 0
  | .setColumn col value => plainCommand 0x12 (aOperand col) 0 value
  | .initializeChain => plainCommand 0x20 0 0 0
  | .writeRegister device register value => plainCommand 0x21 (aOperand device) register value
  | .writeRegisterAll register value => plainCommand 0x22 0 register value
  | .setIntensity level => plainCommand 0x23 0 0 level
  | .commit => plainCommand 0x24 0 0 0
  | .setCharWidth width => plainCommand 0x30 0 width 0
  | .setTextAlignment mode => plainCommand 0x31 0 (modeCode mode) 0
  | .setText text => .command (header 0x32 0 0 0) text
  | .setNextText text => .command (header 0x33 0 0 0) text
  | .setRotate enabled => plainCommand 0x34 0 (if enabled then 1 else 0) 0
  | .scrollTextRight => plainCommand 0x35 0 0 0
  | .scrollTextLeft => plainCommand 0x36 0 0 0
  | .oscillateText => plainCommand 0x37 0 0 0
  | .drawText => plainCommand 0x40 0 0 0
  | .setCustomChar x width data => .command (header 0x41 (aOperand x) width 0) data
  | .wNoop => .word 0
  | .wRow1 data => .word (serialWord Config.regRowBase data)
  | .wRow2 data => .word (serialWord (Config.regRowBase + 1) data)
  | .wRow3 data => .word (serialWord (Config.regRowBase + 2) data)
  | .wRow4 data => .word (serialWord (Config.regRowBase + 3) data)
  | .wRow5 data => .word (serialWord (Config.regRowBase + 4) data)
  | .wRow6 data => .word (serialWord (Config.regRowBase + 5) data)
  | .wRow7 data => .word (serialWord (Config.regRowBase + 6) data)
  | .wRow8 data => .word (serialWord (Config.regRowBase + 7) data)
  | .wDecodeMode data => .word (serialWord Config.regDecodeMode data)
  | .wIntensity data => .word (serialWord Config.regIntensity data)
  | .wScanLimit data => .word (serialWord Config.regScanLimit data)
  | .wShutdown data => .word (serialWord Config.regShutdown data)
  | .wDisplayTest data => .word (serialWord Config.regDisplayTest data)

/-! ### The opcode table's numbering -/

/-- The packet whose bits the table's row of `nbits` bits gives as the number `w`: a 40-bit row is a command header without payload
bytes (R87: the payload is no part of the header), a 16-bit row is a serial word; both are one word, bit 0 its least significant
bit (30_encoding.md R80, R86; notes/assumptions/18.md). -/
def tablePacket (nbits w : Nat) : Option Packet :=
  if nbits = 40 then some (.command (BitVec.ofNat 40 w) [])
  else if nbits = 16 then some (.word (BitVec.ofNat 16 w))
  else none

/-- The instruction the decoder reads from an opcode-table word. -/
def decodeTableWord (nbits w : Nat) : Option Instr :=
  match tablePacket nbits w with
  | some p =>
    match decode p with
    | .instr i => some i
    | _ => none
  | none => none

end Sys2Proof
end

