-- ==== Sys2Proof/Machine/State.lean ====
section
/-! DEFINITION. Everything the spec gives the machine, as plain data (10_state.md R20; 20_memory.md R66 to R69 for the chain), the
reasons a step can stop, and the state right after reset (70_reset_and_hazards.md R191). -/

namespace Sys2Proof.Machine

/-- Bytes by address: addresses strictly rising; an address that is not listed holds no value of its own. -/
abbrev Memory := List Host.Cell

/-- A serial event (10_state.md R36). -/
inductive SerialEvent where
  /-- SELECT goes low -/
  | selAssert
  /-- one word shifted out -/
  | word (v : SerialWord)
  /-- SELECT goes high -/
  | selDeassert
  deriving DecidableEq, Repr

/-- One driver chip of the chain: its 16 bits of the shift register (20_memory.md R66) and its register map (60_exceptions.md R179). -/
structure Chip where
  stage       : SerialWord
  rows        : Vector Byte 8
  decodeMode  : Byte
  intensity   : Byte
  scanLimit   : Byte
  shutdown    : Byte
  displayTest : Byte
  deriving DecidableEq, Repr

/-- What arrives from outside: a command of the host (30_encoding.md R86), a word that a chip of the chain is left holding when SELECT
is deasserted (20_memory.md R67; the "latched noise" of 70_reset_and_hazards.md R204), or a chip that loses power (R204). -/
inductive Input where
  | command (header : Header) (payload : List Byte)
  | chipWord (device : Nat) (w : SerialWord)
  | chipPowerLoss (device : Nat)
  deriving DecidableEq, Repr

/-- The state of the block (R20), of the chain (R66 to R69), the fixed data of the machine (R8, R9), and the model's own `inbox`,
`actingDevice` and `draws`. -/
structure State where
  /-- NUM_DEVICES, written N (00_scope.md R8, 10_state.md R22) -/
  numDevices           : Nat
  /-- SELECT_LINE (00_scope.md R9, 10_state.md R22) -/
  selectLine           : Nat
  /-- FONT, the bytes a run fixes, at address 8 × code + column (20_memory.md R61); the others are `Config.fontByte` -/
  font                 : Memory
  /-- FB (10_state.md R21) -/
  fb                   : Memory
  /-- currentText (10_state.md R26) -/
  currentText          : List Byte
  /-- pendingNextText (10_state.md R27) -/
  pendingNextText      : List Byte
  /-- charWidth (10_state.md R28) -/
  charWidth            : Byte
  /-- scrollCursor (10_state.md R29) -/
  scrollCursor         : Int
  /-- alignmentMode (10_state.md R30) -/
  alignmentMode        : AlignmentMode
  /-- alignmentOffset (10_state.md R31) -/
  alignmentOffset      : Int
  /-- rotationEnabled (10_state.md R32) -/
  rotationEnabled      : Bool
  /-- oscillationDirection (10_state.md R33) -/
  oscillationDirection : Direction
  /-- BUS_OPEN (10_state.md R23) -/
  busOpen              : Bool
  /-- SELECT (10_state.md R35) -/
  select               : PinLevel
  /-- TX, oldest event first (10_state.md R36) -/
  tx                   : List SerialEvent
  /-- the driver chips really chained, device 0 first, the one nearest the block (20_memory.md R66, R67); their number is N unless
  the host miscounted (70_reset_and_hazards.md R196, R207) -/
  chain                : List Chip
  /-- the model's own: the inputs not yet taken, oldest first -/
  inbox                : List Input
  /-- the model's own: the device that acts on a serial word run by itself -/
  actingDevice         : Nat
  /-- the model's own: how many inputs have been taken; the free values are applied to it -/
  draws                : Nat
  deriving DecidableEq, Repr

/-- Why the machine faults. The block itself raises nothing (60_exceptions.md R170). -/
inductive Fault where
  /-- A serial word or a loss of power is placed at a device past the end of the chain (00_scope.md R16): the W16 meanings and the
  step. Safe: no such chip exists. -/
  | noSuchDevice
  deriving DecidableEq, Repr

/-- Why a command is refused: a precondition whose violation is unspecified, where the spec has a model refuse (00_scope.md R12,
60_exceptions.md R171). All are safe. -/
inductive Refusal where
  /-- An instruction without a meaning yet: `exec` alone. Safe. -/
  | notModelled (mnemonic : String)
  /-- SET_PIXEL with a column out of range (U1). Safe. -/
  | pixelColumnOutOfRange
  /-- SCROLL_TEXT_RIGHT with L × W − 5 = 0 (U2). Safe. -/
  | zeroDivisor
  /-- SCROLL_TEXT_RIGHT or SCROLL_TEXT_LEFT with empty text (U3). Safe. -/
  | emptyText
  /-- WRITE_REGISTER with a device out of range (U5). Safe. -/
  | deviceOutOfRange
  /-- DRAW_TEXT with W above 8 and a text to draw (U6). Safe. -/
  | glyphTooWide
  /-- A transmitting command while BUS_OPEN is false (U7). Safe. -/
  | busNotOpen
  /-- SET_CUSTOM_CHAR with fewer payload bytes than `width` (U11). Safe. -/
  | bitmapTooShort
  /-- A payload of 65536 bytes or more, which 30_encoding.md R87 excludes: the step. Safe. -/
  | payloadTooLong
  deriving DecidableEq, Repr

/-- A chip of which nothing is known: each register a free value (93_implementation_defined.md U10), drawn at `event` of the input
numbered `draw`. -/
def unknownChip (draw event device : Nat) : Chip where
  stage       := Config.freeStage draw event device
  rows        := Vector.ofFn fun r => Config.freeChipByte draw event device (Config.regRowBase.toNat + r.val)
  decodeMode  := Config.freeChipByte draw event device Config.regDecodeMode.toNat
  intensity   := Config.freeChipByte draw event device Config.regIntensity.toNat
  scanLimit   := Config.freeChipByte draw event device Config.regScanLimit.toNat
  shutdown    := Config.freeChipByte draw event device Config.regShutdown.toNat
  displayTest := Config.freeChipByte draw event device Config.regDisplayTest.toNat

/-- The state that construction with N devices and a select line produces (10_state.md R39, 70_reset_and_hazards.md R190, R191), in
front of a chain of `chips` chips, which R207 obliges the host to make N and which R196 considers when it is not. -/
def State.constructBefore (chips numDevices selectLine : Nat) : State where
  numDevices           := numDevices
  selectLine           := selectLine
  font                 := []
  fb                   := []
  currentText          := []
  pendingNextText      := []
  charWidth            := Config.charWidthReset
  scrollCursor         := 1
  alignmentMode        := .left
  alignmentOffset      := 0
  rotationEnabled      := false
  oscillationDirection := .minus
  busOpen              := false
  select               := if Config.selectAtReset then .high else .low
  tx                   := []
  chain                := (List.range chips).map fun d => unknownChip 0 0 d
  inbox                := []
  actingDevice         := 0
  draws                := 0

/-- Construction by a host that counted the chips of the chain right (70_reset_and_hazards.md R207). -/
def State.construct (numDevices selectLine : Nat) : State := State.constructBefore numDevices numDevices selectLine

/-- The machine right after reset, with the construction parameters of Config. -/
def State.reset : State := State.construct Config.numDevices Config.selectLine

end Sys2Proof.Machine
end

