-- ==== Sys2Proof/Machine/Operands.lean ====
section
/-! DEFINITION. Operand forms and the arithmetic of the engine: column ranges (20_memory.md R51), truncating division (00_scope.md
R11), the alignment-offset function (42_text_state_ops.md R140). All arithmetic is in ℤ or ℕ, without wrap-around (R10). -/

namespace Sys2Proof.Machine

/-- DISPLAY_COLUMNS = 8 × N (00_scope.md R8). -/
def displayColumns (s : State) : Nat := 8 * s.numDevices

/-- A column index is in range when 0 ≤ c < DISPLAY_COLUMNS (20_memory.md R51). -/
abbrev columnInRange (s : State) (c : Int) : Prop := 0 ≤ c ∧ c < (displayColumns s : Int)

/-- A device index is in range when 0 ≤ d < NUM_DEVICES (41_serial_transmit.md R121). -/
abbrev deviceInRange (s : State) (d : Int) : Prop := 0 ≤ d ∧ d < (s.numDevices : Int)

/-- `tdiv`: the quotient rounded toward zero (00_scope.md R11), for a divisor other than 0. -/
def tdiv (a b : Int) : Int := Int.tdiv a b

/-- `trem`: the remainder that goes with `tdiv`, zero or of the sign of the dividend (00_scope.md R11). -/
def trem (a b : Int) : Int := a - b * tdiv a b

/-- The product L × W of a text and a glyph width (42_text_state_ops.md R146), W first, so that Lean evaluates it for an empty text
whatever W is. -/
def textColumns (text : List Byte) (width : Byte) : Int := (width.toNat : Int) * (text.length : Int)

/-- L × W of the state's current text. -/
def currentColumns (s : State) : Int := textColumns s.currentText s.charWidth

/-- AO, the alignment-offset function (42_text_state_ops.md R140), of a mode, L × W and DISPLAY_COLUMNS. -/
def alignmentOffsetOf (mode : AlignmentMode) (textCols displayCols : Int) : Int :=
  match mode with
  | .left => 0
  | .leftEnd => displayCols
  | .right => textCols - displayCols
  | .rightEnd => -textCols

/-- Bit `row` of a column byte: pixel row 0 is bit 0 (20_memory.md R54). -/
def pixelBit (row : Nat) : Byte := 1#8 <<< row

end Sys2Proof.Machine
end

