-- ==== Sys2Proof/Machine/Flags.lean ====
section
/-! DEFINITION. The block has no condition codes (10_state.md R34). Its one computed two-valued register is `oscillationDirection`
(R33); this file computes it as OSCILLATE_TEXT does (42_text_state_ops.md R149). -/

namespace Sys2Proof.Machine

/-- The step a direction stands for: +1 or −1 (10_state.md R33). -/
def directionStep : Direction → Int
  | .plus => 1
  | .minus => -1

/-- The left-extreme check: the direction becomes +1 once cursor − DISPLAY_COLUMNS ≤ −(L × W) (R149). -/
def turnAtLeft (cursor displayCols textCols : Int) (d : Direction) : Direction :=
  if cursor - displayCols ≤ -textCols then .plus else d

/-- The right-extreme check: the direction becomes −1 once the cursor is at or past 0 (R149). -/
def turnAtRight (cursor : Int) (d : Direction) : Direction :=
  if 0 ≤ cursor then .minus else d

/-- Both checks in their order, left first, so that the right one wins when both hold (R149, 60_exceptions.md R173). -/
def nextDirection (cursor displayCols textCols : Int) (d : Direction) : Direction :=
  turnAtRight cursor (turnAtLeft cursor displayCols textCols d)

end Sys2Proof.Machine
end

