-- ==== Sys2Proof/Machine/Ops.lean ====
section
/-! DEFINITION. The named operations over the state: memory cells, framebuffer columns, font bytes, the alignment offset, serial
events and what they do to the chain, the frame and select-pulse primitives (41_serial_transmit.md R120, R124), a chip that acts on a
word or loses power (20_memory.md R66 to R69, 70_reset_and_hazards.md R204), the render primitive (43_render_ops.md R160 to R162), and taking an input. The block takes no
exception (60_exceptions.md R170, R174), so there is no such operation and no return from one. -/

namespace Sys2Proof.Machine

/-! ### Memory cells -/

/-- The byte listed at an address. -/
def readCell : Memory → Nat → Option Byte
  | [], _ => none
  | (b, v) :: rest, a => if a = b then some v else readCell rest a

/-- Writes one byte, keeping the addresses rising. -/
def writeCell : Memory → Nat → Byte → Memory
  | [], a, v => [(a, v)]
  | (b, w) :: rest, a, v =>
    if a < b then (a, v) :: (b, w) :: rest
    else if a = b then (a, v) :: rest
    else (b, w) :: writeCell rest a v

/-- Writes `v` at every address below `n`, in ascending order of address. -/
def fillCells : Nat → Byte → Memory → Memory
  | 0, _, m => m
  | n + 1, v, m => writeCell (fillCells n v m) n v

/-- The addresses from `low` on rise strictly. -/
def cellsFrom : Nat → Memory → Bool
  | _, [] => true
  | low, (a, _) :: rest => decide (low ≤ a) && cellsFrom (a + 1) rest

/-- The canonical form of a memory: addresses strictly rising. An unlisted address holds no value, so no listed byte is redundant. -/
def Memory.wf (m : Memory) : Bool := cellsFrom 0 m

/-- No address at or past `n` is listed. -/
def cellsBelow (n : Nat) (m : Memory) : Bool := m.all fun c => decide (c.1 < n)

/-! ### Framebuffer, font and alignment offset -/

/-- `FB[c]`; a byte that nothing has written since reset is a free value, drawn for this input (10_state.md R21, U12). R21 says that two
reads of such a byte need not agree. DESIGN CHOICE (notes/assumptions/6.md): two reads with one `draws` count do agree, and an inspection
after a command (R41, `pixel`) has the count of that command, so it shows the byte the command read. -/
def readColumn (s : State) (c : Nat) : Byte := (readCell s.fb c).getD (Config.freeColumn s.draws c)

/-- `FB[c] <- v` (00_scope.md R12). -/
def writeColumn (c : Nat) (v : Byte) (s : State) : State := { s with fb := writeCell s.fb c v }

/-- The primitive SetPixel: sets bit `row` of column `c` and no other (40_framebuffer_ops.md R111). -/
def setPixelAt (c row : Nat) (s : State) : State := writeColumn c (readColumn s c ||| pixelBit row) s

/-- The primitive SetColumn: overwrites an in-range column, drops any other (40_framebuffer_ops.md R112). -/
def setColumnAt (c : Int) (v : Byte) (s : State) : State :=
  if columnInRange s c then writeColumn c.toNat v s else s

/-- One byte of the font table (00_scope.md R9, 20_memory.md R61). -/
def fontByte (s : State) (code : Byte) (column : Nat) : Byte :=
  (readCell s.font (8 * code.toNat + column)).getD (Config.fontByte code.toNat column)

/-- `Glyph(code)`: the 8 bytes of a character (00_scope.md R12). -/
def glyph (s : State) (code : Byte) : List Byte := (List.range 8).map (fontByte s code)

/-- `alignmentOffset <- AO(alignmentMode, len(currentText), charWidth)` (42_text_state_ops.md R140, R151). -/
def recomputeOffset (s : State) : State :=
  { s with alignmentOffset := alignmentOffsetOf s.alignmentMode (currentColumns s) (displayColumns s) }

/-! ### The driver chips -/

/-- A chip acts on the word in its stage (20_memory.md R68, 60_exceptions.md R179). Address 0 is the no-op; 1..8 and the five control
addresses store the data byte. What the spec leaves open is taken from `any`: the intensity register for data above 15 (U4), every
register for an address outside the map (U9).

DESIGN CHOICE, unsafe (notes/assumptions/25.md): a chip put to sleep by shutdown 0 retains all its other registers and acts on the words
it receives as one that is awake (R182: "What a sleeping chip retains is the chip's affair"), and a display-test value other than 0
changes nothing but the display-test register (R181: "an effect only the chip defines"). -/
def latchChip (any c : Chip) : Chip :=
  let reg := regField c.stage
  let data := dataField c.stage
  if reg = 0 then c
  else if Config.regRowBase ≤ reg ∧ reg < Config.regRowBase + 8 then
    { c with rows := c.rows.setIfInBounds (reg.toNat - Config.regRowBase.toNat) data }
  else if reg = Config.regDecodeMode then { c with decodeMode := data }
  else if reg = Config.regIntensity then { c with intensity := if data.toNat ≤ 15 then data else any.intensity }
  else if reg = Config.regScanLimit then { c with scanLimit := data }
  else if reg = Config.regShutdown then { c with shutdown := data }
  else if reg = Config.regDisplayTest then { c with displayTest := data }
  else { any with stage := c.stage }

/-- One word enters the shift register at device 0 and moves every stage's word one device on (20_memory.md R66, R67). -/
def shiftIn : SerialWord → List Chip → List Chip
  | _, [] => []
  | v, c :: rest => { c with stage := v } :: shiftIn c.stage rest

/-- Every device, from number `d` on, acts on its stage (20_memory.md R67). -/
def latchFrom (draw event : Nat) : Nat → List Chip → List Chip
  | _, [] => []
  | d, c :: rest => latchChip (unknownChip draw event d) c :: latchFrom draw event (d + 1) rest

/-! ### Serial events, frames, the select pulse -/

/-- `emit e`: appends to TX (00_scope.md R12), drives SELECT (10_state.md R35, R36), and moves the chain. The transport is assumed
reliable, as D0 assumes it (41_serial_transmit.md R128, 70_reset_and_hazards.md R204; notes/assumptions/26.md): every event reaches
every chip unchanged, and nothing is read back. -/
def emit (e : SerialEvent) (s : State) : State :=
  match e with
  | .selAssert => { s with tx := s.tx ++ [.selAssert], select := .low }
  | .word v => { s with tx := s.tx ++ [.word v], chain := shiftIn v s.chain }
  | .selDeassert =>
    { s with tx := s.tx ++ [.selDeassert], select := .high, chain := latchFrom s.draws s.tx.length 0 s.chain }

/-- The words of a frame, in the order they are given. -/
def emitWords : List SerialWord → State → State
  | [], s => s
  | v :: rest, s => emitWords rest (emit (.word v) s)

/-- TxFrame(w), `w` indexed by slot: the word of slot N−1 goes first, that of slot 0 last (41_serial_transmit.md R120). -/
def txFrame (w : List SerialWord) (s : State) : State :=
  emit .selDeassert (emitWords w.reverse (emit .selAssert s))

/-- SelectPulse(): a frame with no word (41_serial_transmit.md R124). Each chip of the chain acts on the unknown bits it holds, so that
any value may stand in its stage and in its registers afterwards (20_memory.md R69, U10). -/
def selectPulse (s : State) : State :=
  let low := emit .selAssert s
  { low with
    tx := low.tx ++ [.selDeassert]
    select := .high
    chain := (List.range s.chain.length).map fun d => unknownChip s.draws low.tx.length d }

/-- The word array of a targeted write: zero in every slot but the target's (41_serial_transmit.md R121). -/
def targetWords (n device : Nat) (w : SerialWord) : List SerialWord := (List.replicate n 0).set device w

/-- WRITE_REGISTER(device, register, value), for a device in range (41_serial_transmit.md R121). -/
def writeRegisterAt (device : Nat) (reg value : Byte) (s : State) : State :=
  txFrame (targetWords s.numDevices device (serialWord reg value)) s

/-- WRITE_REGISTER_ALL(register, value): one targeted write per device, ascending (41_serial_transmit.md R122). -/
def writeRegisterEach (reg value : Byte) (s : State) : State :=
  (List.range s.numDevices).foldl (fun t d => writeRegisterAt d reg value t) s

/-- The five setup registers and their values, in the order INITIALIZE writes them (41_serial_transmit.md R125). -/
def setupWrites : List (Byte × Byte) :=
  [(Config.regScanLimit, 7), (Config.regDecodeMode, 0), (Config.regDisplayTest, 0), (Config.regIntensity, 0),
   (Config.regShutdown, 1)]

/-- The five setup writes of one device (41_serial_transmit.md R125). -/
def setupDevice (device : Nat) (s : State) : State :=
  setupWrites.foldl (fun t rv => writeRegisterAt device rv.1 rv.2 t) s

/-- Mux(r) with its register address: slot d carries FB[8d + r] to row register r + 1 (20_memory.md R53). -/
def muxWords (s : State) (r : Nat) : List SerialWord :=
  (List.range s.numDevices).map fun d =>
    serialWord (Config.regRowBase + BitVec.ofNat 8 r) (readColumn s (8 * d + r))

/-- Frame r of COMMIT (41_serial_transmit.md R126). -/
def commitRow (r : Nat) (s : State) : State := txFrame (muxWords s r) s

/-! ### A serial word, or a loss of power, at one chip -/

/-- The acting device takes a word into its stage and acts on it (20_memory.md R67, R68). -/
def chipReceive (w : SerialWord) (s : State) : Host.Outcome State Fault Refusal :=
  if s.actingDevice < s.chain.length then
    .next { s with
      chain := s.chain.modify s.actingDevice fun c =>
        latchChip (unknownChip s.draws s.tx.length s.actingDevice) { c with stage := w } }
  else .fault .noSuchDevice

/-- A chip loses power and comes back with any value in its stage and its registers (70_reset_and_hazards.md R204;
notes/assumptions/27.md). The block keeps no copy and takes no notice. -/
def losePower (device : Nat) (s : State) : Host.Outcome State Fault Refusal :=
  if device < s.chain.length then
    .next { s with chain := s.chain.set device (unknownChip s.draws s.tx.length device) }
  else .fault .noSuchDevice

/-! ### Rendering -/

/-- What the render primitive returns (43_render_ops.md R160). -/
inductive Rendered where
  | done (s : State)
  | aborted (s : State)
  deriving DecidableEq, Repr

/-- The state in which a render ends, whichever way it ends (43_render_ops.md R164: pixels set before an abort stay set). -/
def Rendered.state : Rendered → State
  | .done s => s
  | .aborted s => s

/-- RenderColumnRotated(p, byte) over the bit rows given, with its abort (43_render_ops.md R162). -/
def renderBits (p : Nat) (byte : Byte) : List Nat → State → Rendered
  | [], s => .done s
  | row :: rest, s =>
    if byte.getLsbD row then
      if p / 8 * 8 + row < displayColumns s then
        renderBits p byte rest (setPixelAt (p / 8 * 8 + row) (7 - p % 8) s)
      else .aborted s
    else renderBits p byte rest s

/-- One glyph column at an in-range position, by the plain or the rotated path (43_render_ops.md R161, R162). -/
def renderColumn (p : Nat) (byte : Byte) (s : State) : Rendered :=
  if s.rotationEnabled then renderBits p byte (List.range 8) s
  else .done (setColumnAt p byte s)

/-- Render(base, width, colinfo) for the columns given, the first at position `p` (43_render_ops.md R160). -/
def render : Int → List Byte → State → Rendered
  | _, [], s => .done s
  | p, byte :: rest, s =>
    if columnInRange s p then
      match renderColumn p.toNat byte s with
      | .done t => render (p + 1) rest t
      | .aborted t => .aborted t
    else render (p + 1) rest s

/-- The loop of DRAW_TEXT over the characters given, the first with charIndex `i` (43_render_ops.md R163). -/
def renderText : Nat → List Byte → State → Rendered
  | _, [], s => .done s
  | i, code :: rest, s =>
    match render ((i : Int) * s.charWidth.toNat + s.scrollCursor + s.alignmentOffset)
        ((glyph s code).take s.charWidth.toNat) s with
    | .done t => renderText (i + 1) rest t
    | .aborted t => .aborted t

/-! ### Taking an input -/

/-- The state in which the oldest input has been taken: it leaves the inbox and the count of inputs goes up. -/
def takeInput (rest : List Input) (s : State) : State := { s with inbox := rest, draws := s.draws + 1 }

/-- What a step takes from the inbox, with the state it goes on in: nothing when no input waits (70_reset_and_hazards.md R192), a packet
to decode, or a chip's loss of power. -/
inductive Fetched where
  | idle
  | packet (p : Packet) (s : State)
  | powerLoss (device : Nat) (s : State)
  deriving DecidableEq, Repr

/-- Takes the oldest input. -/
def fetch (s : State) : Fetched :=
  match s.inbox with
  | [] => .idle
  | .command h p :: rest => .packet (.command h p) (takeInput rest s)
  | .chipWord device w :: rest => .packet (.word w) { takeInput rest s with actingDevice := device }
  | .chipPowerLoss device :: rest => .powerLoss device (takeInput rest s)

/-- An input that presents a packet: a word is presented to device 0, the one nearest the block. -/
def inputOf : Packet → Input
  | .command h p => .command h p
  | .word w => .chipWord 0 w

end Sys2Proof.Machine
end

