-- ==== Sys2Proof/Machine/Framebuffer.lean ====
section
/-! DEFINITION. The framebuffer commands (40_framebuffer_ops.md): CLEAR, SET_PIXEL, SET_COLUMN. -/

namespace Sys2Proof.Machine

/-- CLEAR (R110): every framebuffer byte becomes 0. -/
def execClear (s : State) : Host.Outcome State Fault Refusal :=
  .next { s with fb := fillCells (displayColumns s) 0 s.fb }

/-- SET_PIXEL (R111): sets one bit of an in-range column; a column out of range is unspecified and refused (U1). -/
def execSetPixel (col : Int) (row : Fin 8) (s : State) : Host.Outcome State Fault Refusal :=
  if columnInRange s col then .next (setPixelAt col.toNat row.val s)
  else .refused .pixelColumnOutOfRange

/-- SET_COLUMN (R112): overwrites an in-range column; any other is a silent no-op. -/
def execSetColumn (col : Int) (value : Byte) (s : State) : Host.Outcome State Fault Refusal :=
  .next (setColumnAt col value s)

end Sys2Proof.Machine
end

