-- ==== Sys2Proof/Machine/Render.lean ====
section
/-! DEFINITION. The render commands (43_render_ops.md): DRAW_TEXT, SET_CUSTOM_CHAR. -/

namespace Sys2Proof.Machine

/-- DRAW_TEXT (R163): W above 8 with a text to draw is unspecified and refused (U6). -/
def execDrawText (s : State) : Host.Outcome State Fault Refusal :=
  if s.currentText = [] ∨ s.charWidth.toNat ≤ 8 then .next (renderText 0 s.currentText s).state
  else .refused .glyphTooWide

/-- SET_CUSTOM_CHAR (R164): a payload shorter than `width` is unspecified and refused (U11). -/
def execSetCustomChar (x : Int) (width : Byte) (data : List Byte) (s : State) : Host.Outcome State Fault Refusal :=
  if width.toNat ≤ data.length then .next (render x (data.take width.toNat) s).state
  else .refused .bitmapTooShort

end Sys2Proof.Machine
end

