-- ==== Sys2Proof/Machine/Serial.lean ====
section
/-! DEFINITION. The serial commands (41_serial_transmit.md): INITIALIZE, WRITE_REGISTER, WRITE_REGISTER_ALL, SET_INTENSITY, COMMIT. -/

namespace Sys2Proof.Machine

/-- INITIALIZE (R125): the select pulse, the bus open, then the five setup writes of each device, device 0 first. -/
def execInitializeChain (s : State) : Host.Outcome State Fault Refusal :=
  .next ((List.range s.numDevices).foldl (fun t d => setupDevice d t) { selectPulse s with busOpen := true })

/-- WRITE_REGISTER (R121): one frame whose only non-zero slot is the target's. -/
def execWriteRegister (device : Int) (register value : Byte) (s : State) : Host.Outcome State Fault Refusal :=
  if s.busOpen = false then .refused .busNotOpen
  else if deviceInRange s device then .next (writeRegisterAt device.toNat register value s)
  else .refused .deviceOutOfRange

/-- WRITE_REGISTER_ALL (R122): one targeted write per device, ascending. -/
def execWriteRegisterAll (register value : Byte) (s : State) : Host.Outcome State Fault Refusal :=
  if s.busOpen = false then .refused .busNotOpen
  else .next (writeRegisterEach register value s)

/-- SET_INTENSITY (R123): the intensity register of every device, the level unchecked. -/
def execSetIntensity (level : Byte) (s : State) : Host.Outcome State Fault Refusal :=
  if s.busOpen = false then .refused .busNotOpen
  else .next (writeRegisterEach Config.regIntensity level s)

/-- COMMIT (R126): eight frames, frame r carrying Mux(r) to row register r + 1. -/
def execCommit (s : State) : Host.Outcome State Fault Refusal :=
  if s.busOpen = false then .refused .busNotOpen
  else .next ((List.range 8).foldl (fun t r => commitRow r t) s)

end Sys2Proof.Machine
end

