-- ==== Sys2Proof/Machine/SerialWords.lean ====
section
/-! DEFINITION. The serial words, the rows of format W16 (30_encoding.md R82 to R84), run by themselves: the acting device holds the
word when SELECT is deasserted and acts on it (20_memory.md R67, R68; notes/assumptions/10.md). -/

namespace Sys2Proof.Machine

/-- W_NOOP (R84): a device that receives 0x0000 does nothing (20_memory.md R68). -/
def execWNoop (s : State) : Host.Outcome State Fault Refusal := chipReceive 0 s

/-- W_ROW1 (R82, 20_memory.md R68): stores the data byte in row-data register 1. -/
def execWRow1 (data : Byte) (s : State) : Host.Outcome State Fault Refusal :=
  chipReceive (serialWord Config.regRowBase data) s

/-- W_ROW2 (R82, 20_memory.md R68): stores the data byte in row-data register 2. -/
def execWRow2 (data : Byte) (s : State) : Host.Outcome State Fault Refusal :=
  chipReceive (serialWord (Config.regRowBase + 1) data) s

/-- W_ROW3 (R82, 20_memory.md R68): stores the data byte in row-data register 3. -/
def execWRow3 (data : Byte) (s : State) : Host.Outcome State Fault Refusal :=
  chipReceive (serialWord (Config.regRowBase + 2) data) s

/-- W_ROW4 (R82, 20_memory.md R68): stores the data byte in row-data register 4. -/
def execWRow4 (data : Byte) (s : State) : Host.Outcome State Fault Refusal :=
  chipReceive (serialWord (Config.regRowBase + 3) data) s

/-- W_ROW5 (R82, 20_memory.md R68): stores the data byte in row-data register 5. -/
def execWRow5 (data : Byte) (s : State) : Host.Outcome State Fault Refusal :=
  chipReceive (serialWord (Config.regRowBase + 4) data) s

/-- W_ROW6 (R82, 20_memory.md R68): stores the data byte in row-data register 6. -/
def execWRow6 (data : Byte) (s : State) : Host.Outcome State Fault Refusal :=
  chipReceive (serialWord (Config.regRowBase + 5) data) s

/-- W_ROW7 (R82, 20_memory.md R68): stores the data byte in row-data register 7. -/
def execWRow7 (data : Byte) (s : State) : Host.Outcome State Fault Refusal :=
  chipReceive (serialWord (Config.regRowBase + 6) data) s

/-- W_ROW8 (R82, 20_memory.md R68): stores the data byte in row-data register 8. -/
def execWRow8 (data : Byte) (s : State) : Host.Outcome State Fault Refusal :=
  chipReceive (serialWord (Config.regRowBase + 7) data) s

/-- W_DECODE_MODE (R83, 20_memory.md R68): stores the data byte in the decode-mode register. -/
def execWDecodeMode (data : Byte) (s : State) : Host.Outcome State Fault Refusal :=
  chipReceive (serialWord Config.regDecodeMode data) s

/-- W_INTENSITY (R83, 20_memory.md R68): stores the data byte in the intensity register, data above 15 leaving it open (U4). -/
def execWIntensity (data : Byte) (s : State) : Host.Outcome State Fault Refusal :=
  chipReceive (serialWord Config.regIntensity data) s

/-- W_SCAN_LIMIT (R83, 20_memory.md R68): stores the data byte in the scan-limit register. -/
def execWScanLimit (data : Byte) (s : State) : Host.Outcome State Fault Refusal :=
  chipReceive (serialWord Config.regScanLimit data) s

/-- W_SHUTDOWN (R83, 20_memory.md R68): stores the data byte in the shutdown register. -/
def execWShutdown (data : Byte) (s : State) : Host.Outcome State Fault Refusal :=
  chipReceive (serialWord Config.regShutdown data) s

/-- W_DISPLAY_TEST (R83, 20_memory.md R68): stores the data byte in the display-test register. -/
def execWDisplayTest (data : Byte) (s : State) : Host.Outcome State Fault Refusal :=
  chipReceive (serialWord Config.regDisplayTest data) s

end Sys2Proof.Machine
end

