-- ==== Sys2Proof/Machine/TextState.lean ====
section
/-! DEFINITION. The text state commands (42_text_state_ops.md): SET_CHAR_WIDTH, SET_TEXT_ALIGNMENT, SET_TEXT, SET_NEXT_TEXT,
SET_ROTATE, SCROLL_TEXT_RIGHT, SCROLL_TEXT_LEFT, OSCILLATE_TEXT. -/

namespace Sys2Proof.Machine

/-- SET_CHAR_WIDTH (R141). -/
def execSetCharWidth (width : Byte) (s : State) : Host.Outcome State Fault Refusal :=
  .next (recomputeOffset { s with charWidth := width })

/-- SET_TEXT_ALIGNMENT (R142). -/
def execSetTextAlignment (mode : AlignmentMode) (s : State) : Host.Outcome State Fault Refusal :=
  .next (recomputeOffset { s with alignmentMode := mode })

/-- SET_TEXT (R143): the cursor starts at 1, not 0. -/
def execSetText (text : List Byte) (s : State) : Host.Outcome State Fault Refusal :=
  .next (recomputeOffset { s with currentText := text, scrollCursor := 1 })

/-- SET_NEXT_TEXT (R144). -/
def execSetNextText (text : List Byte) (s : State) : Host.Outcome State Fault Refusal :=
  .next { s with pendingNextText := text }

/-- SET_ROTATE (R145): the operand is the new value. -/
def execSetRotate (enabled : Bool) (s : State) : Host.Outcome State Fault Refusal :=
  .next { s with rotationEnabled := enabled }

/-- SCROLL_TEXT_RIGHT (R147): an empty text (U3) and a zero divisor (U2) are unspecified and refused. -/
def execScrollTextRight (s : State) : Host.Outcome State Fault Refusal :=
  if s.currentText = [] then .refused .emptyText
  else if currentColumns s - 5 = 0 then .refused .zeroDivisor
  else .next { s with scrollCursor := trem (s.scrollCursor + 1) (currentColumns s - 5) }

/-- The swap of SCROLL_TEXT_LEFT, when the cursor is 0 and a text is staged (R148). -/
def swapStagedText (s : State) : State :=
  if s.scrollCursor = 0 ∧ s.pendingNextText ≠ [] then
    recomputeOffset { s with currentText := s.pendingNextText, pendingNextText := [] }
  else s

/-- SCROLL_TEXT_LEFT (R148): an empty text is unspecified and refused (U3). -/
def execScrollTextLeft (s : State) : Host.Outcome State Fault Refusal :=
  if s.currentText = [] then .refused .emptyText
  else
    .next (swapStagedText
      { s with scrollCursor := trem (s.scrollCursor - 1) (currentColumns s + displayColumns s) })

/-- OSCILLATE_TEXT (R149): nothing when the text fits; otherwise both direction checks, then one step. -/
def execOscillateText (s : State) : Host.Outcome State Fault Refusal :=
  if currentColumns s ≤ displayColumns s then .next s
  else
    let dir := nextDirection s.scrollCursor (displayColumns s) (currentColumns s) s.oscillationDirection
    .next { s with oscillationDirection := dir, scrollCursor := s.scrollCursor + directionStep dir }

end Sys2Proof.Machine
end

