-- ==== Sys2Proof/Machine/Dispatch.lean ====
section
/-! DEFINITION. The meaning of every instruction: one arm per constructor, each a direct call of that instruction's own definition. -/

namespace Sys2Proof.Machine

def exec (i : Instr) (s : State) : Host.Outcome State Fault Refusal :=
  match i with
  | .clear => Sys2Proof.Machine.execClear s
  | .setPixel col row => Sys2Proof.Machine.execSetPixel col row s
  | .setColumn col value => Sys2Proof.Machine.execSetColumn col value s
  | .initializeChain => Sys2Proof.Machine.execInitializeChain s
  | .writeRegister device register value => Sys2Proof.Machine.execWriteRegister device register value s
  | .writeRegisterAll register value => Sys2Proof.Machine.execWriteRegisterAll register value s
  | .setIntensity level => Sys2Proof.Machine.execSetIntensity level s
  | .commit => Sys2Proof.Machine.execCommit s
  | .setCharWidth width => Sys2Proof.Machine.execSetCharWidth width s
  | .setTextAlignment mode => Sys2Proof.Machine.execSetTextAlignment mode s
  | .setText text => Sys2Proof.Machine.execSetText text s
  | .setNextText text => Sys2Proof.Machine.execSetNextText text s
  | .setRotate enabled => Sys2Proof.Machine.execSetRotate enabled s
  | .scrollTextRight => Sys2Proof.Machine.execScrollTextRight s
  | .scrollTextLeft => Sys2Proof.Machine.execScrollTextLeft s
  | .oscillateText => Sys2Proof.Machine.execOscillateText s
  | .drawText => Sys2Proof.Machine.execDrawText s
  | .setCustomChar x width data => Sys2Proof.Machine.execSetCustomChar x width data s
  | .wNoop => Sys2Proof.Machine.execWNoop s
  | .wRow1 data => Sys2Proof.Machine.execWRow1 data s
  | .wRow2 data => Sys2Proof.Machine.execWRow2 data s
  | .wRow3 data => Sys2Proof.Machine.execWRow3 data s
  | .wRow4 data => Sys2Proof.Machine.execWRow4 data s
  | .wRow5 data => Sys2Proof.Machine.execWRow5 data s
  | .wRow6 data => Sys2Proof.Machine.execWRow6 data s
  | .wRow7 data => Sys2Proof.Machine.execWRow7 data s
  | .wRow8 data => Sys2Proof.Machine.execWRow8 data s
  | .wDecodeMode data => Sys2Proof.Machine.execWDecodeMode data s
  | .wIntensity data => Sys2Proof.Machine.execWIntensity data s
  | .wScanLimit data => Sys2Proof.Machine.execWScanLimit data s
  | .wShutdown data => Sys2Proof.Machine.execWShutdown data s
  | .wDisplayTest data => Sys2Proof.Machine.execWDisplayTest data s

end Sys2Proof.Machine
end

