-- ==== Sys2Proof/Machine/Step.lean ====
section
/-! DEFINITION. One step: the oldest input is taken, decoded and run to completion (00_scope.md R13, 20_memory.md R63). -/

namespace Sys2Proof.Machine

/-- One step. With no input the block waits (70_reset_and_hazards.md R192). A chip may lose power (R204). A reserved opcode is a silent no-op (30_encoding.md R91);
a word outside the chip's map makes the chip react in a way the spec leaves open (U9); a payload too long is no input of the port. -/
def step (s : State) : Host.Outcome State Fault Refusal :=
  match fetch s with
  | .idle => .next s
  | .powerLoss device t => losePower device t
  | .packet p t =>
    match decode p with
    | .instr i => exec i t
    | .reserved _ => .next t
    | .unmapped w => chipReceive w t
    | .payloadTooLong => .refused .payloadTooLong

/-- `s` with an opcode-table word as the next input, so that the very next step runs it: a 40-bit word as a command without payload,
a 16-bit word as a serial word at device 0. -/
def State.withFetchWord (s : State) (nbits w : Nat) : State :=
  match tablePacket nbits w with
  | some p => { s with inbox := inputOf p :: s.inbox }
  | none => s

end Sys2Proof.Machine
end

