-- ==== Sys2Proof/Safety.lean ====
section
/-! DEFINITION. The terms claims are stated in: the shape of a frame and of the trace, the machine's invariant, a run of several
instructions, the preconditions the spec leaves unspecified, and how an outcome stops. -/

namespace Sys2Proof.Machine

/-- The events of the frame of a word array indexed by slot: slot N−1 first (30_encoding.md R81). -/
def frameEvents (w : List SerialWord) : List SerialEvent :=
  .selAssert :: (w.reverse.map .word ++ [.selDeassert])

/-- The events are whole frames, each of exactly `n` words or of none (41_serial_transmit.md R127); the second
argument is how many words the frame that is open has so far, if one is open. -/
def framesOk (n : Nat) : Option Nat → List SerialEvent → Bool
  | none, [] => true
  | none, .selAssert :: rest => framesOk n (some 0) rest
  | some k, .word _ :: rest => framesOk n (some (k + 1)) rest
  | some k, .selDeassert :: rest => (k == n || k == 0) && framesOk n none rest
  | _, _ => false

/-- The alignment offset is the value AO gives for the current mode, text and width (10_state.md R31, 42_text_state_ops.md R151). -/
def offsetFresh (s : State) : Prop :=
  s.alignmentOffset = alignmentOffsetOf s.alignmentMode (currentColumns s) (displayColumns s)

/-- What holds of the machine between steps: N is legal (R8), the framebuffer is in canonical form and inside its range (R51), the
font is in canonical form, the texts have a legal length (R87), the offset is never stale (R31), every device has its chip (R66), the
trace is made of whole frames (R127), and SELECT is high once the bus is open or anything has been sent (R35, R195). -/
structure State.Inv (s : State) : Prop where
  devices  : 1 ≤ s.numDevices ∧ s.numDevices ≤ Config.maxDevices
  fbForm   : Memory.wf s.fb = true
  fbRange  : cellsBelow (displayColumns s) s.fb = true
  fontForm : Memory.wf s.font = true
  textLen  : s.currentText.length < Config.payloadLimit
  nextLen  : s.pendingNextText.length < Config.payloadLimit
  offset   : offsetFresh s
  chips    : s.chain.length = s.numDevices
  trace    : framesOk s.numDevices none s.tx = true
  idleOpen : s.busOpen = true → s.select = .high
  idleSent : s.tx ≠ [] → s.select = .high

/-- Runs instructions one after another, stopping at the first fault or refusal (70_reset_and_hazards.md R195). -/
def execAll : List Instr → State → Host.Outcome State Fault Refusal
  | [], s => .next s
  | i :: rest, s =>
    match exec i s with
    | .next t => execAll rest t
    | .fault f => .fault f
    | .refused r => .refused r

/-- Whether the instruction is one of the 18 commands (30_encoding.md R88), not a serial word. -/
def isCommand : Instr → Bool
  | .clear | .setPixel _ _ | .setColumn _ _ | .initializeChain | .writeRegister _ _ _ | .writeRegisterAll _ _ | .setIntensity _
  | .commit | .setCharWidth _ | .setTextAlignment _ | .setText _ | .setNextText _ | .setRotate _ | .scrollTextRight
  | .scrollTextLeft | .oscillateText | .drawText | .setCustomChar _ _ _ => true
  | .wNoop | .wRow1 _ | .wRow2 _ | .wRow3 _ | .wRow4 _ | .wRow5 _ | .wRow6 _ | .wRow7 _ | .wRow8 _ | .wDecodeMode _
  | .wIntensity _ | .wScanLimit _ | .wShutdown _ | .wDisplayTest _ => false

/-- The preconditions of 70_reset_and_hazards.md R199, written out: the instruction's holds in the state. -/
def preconditionHolds (i : Instr) (s : State) : Prop :=
  match i with
  | .setPixel col _ => 0 ≤ col ∧ col < 8 * (s.numDevices : Int)
  | .scrollTextRight => 1 ≤ s.currentText.length ∧ s.currentText.length * s.charWidth.toNat ≠ 5
  | .scrollTextLeft => 1 ≤ s.currentText.length
  | .writeRegister device _ _ => s.busOpen = true ∧ 0 ≤ device ∧ device < (s.numDevices : Int)
  | .writeRegisterAll _ _ => s.busOpen = true
  | .setIntensity _ => s.busOpen = true
  | .commit => s.busOpen = true
  | .drawText => 1 ≤ s.currentText.length → s.charWidth.toNat ≤ 8
  | .setCustomChar _ width data => width.toNat ≤ data.length
  | .clear | .setColumn _ _ | .initializeChain | .setCharWidth _ | .setTextAlignment _ | .setText _ | .setNextText _ | .setRotate _
  | .oscillateText | .wNoop | .wRow1 _ | .wRow2 _ | .wRow3 _ | .wRow4 _ | .wRow5 _ | .wRow6 _ | .wRow7 _ | .wRow8 _
  | .wDecodeMode _ | .wIntensity _ | .wScanLimit _ | .wShutdown _ | .wDisplayTest _ => True

/-- The register at an address of a chip's map (60_exceptions.md R179), if there is one. -/
def chipRegister (c : Chip) (a : Byte) : Option Byte :=
  if Config.regRowBase ≤ a ∧ a < Config.regRowBase + 8 then c.rows[a.toNat - Config.regRowBase.toNat]?
  else if a = Config.regDecodeMode then some c.decodeMode
  else if a = Config.regIntensity then some c.intensity
  else if a = Config.regScanLimit then some c.scanLimit
  else if a = Config.regShutdown then some c.shutdown
  else if a = Config.regDisplayTest then some c.displayTest
  else none

/-- Pixel (c, r): bit r of column c (20_memory.md R54, 10_state.md R41). Of a byte that nothing has written it shows what the last command
would have read, a DESIGN CHOICE (`readColumn`, notes/assumptions/6.md). -/
def pixel (s : State) (c r : Nat) : Bool := (readColumn s c).getLsbD r

end Sys2Proof.Machine
end

