-- ==== Sys2Proof/Certificates/Slice0/Obligations.lean ====
section
/-! DEFINITION. The statements about the machine, each taken from the rules of spec/. -/

open Sys2Proof Sys2Proof.Machine

/-! ### Encoding -/

/-- For every instruction with operands its encoding can hold, decoding the encoding gives the instruction back. It rests on the
spec's own choice of a command encoding (decision D2), so it is derived from 30_encoding.md. -/
def Obligations.DecodeInvertsEncode : Prop :=
  ∀ i : Instr, i.wellFormed = true → decode (encode i) = .instr i

/-- For every value of the fields a, b, c and every payload, a header with the opcode of a row of R88 is that row's command with the
operands of R89; the fields and the payload a row does not use have no effect (R86). Derived: decision D2. -/
def Obligations.HeaderFieldsAreTheOperands : Prop :=
  ∀ (a : BitVec 16) (b c : Byte) (p : List Byte),
    decode (.command (header 0x10 a b c) p) = .instr .clear ∧
    decode (.command (header 0x11 a b c) p) = .instr (.setPixel a.toInt (Fin.ofNat 8 b.toNat)) ∧
    decode (.command (header 0x12 a b c) p) = .instr (.setColumn a.toInt c) ∧
    decode (.command (header 0x20 a b c) p) = .instr .initializeChain ∧
    decode (.command (header 0x21 a b c) p) = .instr (.writeRegister a.toInt b c) ∧
    decode (.command (header 0x22 a b c) p) = .instr (.writeRegisterAll b c) ∧
    decode (.command (header 0x23 a b c) p) = .instr (.setIntensity c) ∧
    decode (.command (header 0x24 a b c) p) = .instr .commit ∧
    decode (.command (header 0x30 a b c) p) = .instr (.setCharWidth b) ∧
    (b.toNat % 4 = 0 → decode (.command (header 0x31 a b c) p) = .instr (.setTextAlignment .left)) ∧
    (b.toNat % 4 = 1 → decode (.command (header 0x31 a b c) p) = .instr (.setTextAlignment .leftEnd)) ∧
    (b.toNat % 4 = 2 → decode (.command (header 0x31 a b c) p) = .instr (.setTextAlignment .right)) ∧
    (b.toNat % 4 = 3 → decode (.command (header 0x31 a b c) p) = .instr (.setTextAlignment .rightEnd)) ∧
    (p.length < 65536 → decode (.command (header 0x32 a b c) p) = .instr (.setText p)) ∧
    (p.length < 65536 → decode (.command (header 0x33 a b c) p) = .instr (.setNextText p)) ∧
    decode (.command (header 0x34 a b c) p) = .instr (.setRotate (decide (b.toNat % 2 = 1))) ∧
    decode (.command (header 0x35 a b c) p) = .instr .scrollTextRight ∧
    decode (.command (header 0x36 a b c) p) = .instr .scrollTextLeft ∧
    decode (.command (header 0x37 a b c) p) = .instr .oscillateText ∧
    decode (.command (header 0x40 a b c) p) = .instr .drawText ∧
    (p.length < 65536 → decode (.command (header 0x41 a b c) p) = .instr (.setCustomChar a.toInt b p))

/-- A serial word is reg × 256 + data, and its two fields are the two bytes it was made of (30_encoding.md R80). -/
def Obligations.SerialWordIsRegisterAndData : Prop :=
  ∀ reg data : Byte,
    (serialWord reg data).toNat = reg.toNat * 256 + data.toNat ∧
    regField (serialWord reg data) = reg ∧ dataField (serialWord reg data) = data ∧
    ∀ w : SerialWord, serialWord (regField w) (dataField w) = w

/-- Whatever the decoder answers as an instruction has operands its encoding can hold (R87, R89). -/
def Obligations.DecodedInstructionsAreWellFormed : Prop :=
  ∀ (p : Packet) (i : Instr), decode p = .instr i → i.wellFormed = true

/-- A command whose opcode is none of the 18 of R88 is a silent no-op: the step takes it and changes nothing else (R91, the spec's
decision D14). -/
def Obligations.ReservedOpcodeIsASilentNoOp : Prop :=
  ∀ (s : State) (h : Header) (p : List Byte) (rest : List Input),
    s.inbox = .command h p :: rest →
    (opField h).toNat ∉ [0x10, 0x11, 0x12, 0x20, 0x21, 0x22, 0x23, 0x24, 0x30, 0x31, 0x32, 0x33, 0x34, 0x35, 0x36, 0x37, 0x40, 0x41] →
    step s = .next { s with inbox := rest, draws := s.draws + 1 }

/-- Words written out from the spec's encodings (95_test_vectors.md 2.6, 30_encoding.md R83) decode to what they stand for. -/
def Obligations.SpecWordsDecode : Prop :=
  decodeTableWord 40 0x1100090700 = some (.setPixel 9 7) ∧
  decodeTableWord 40 0x12FFFF00AA = some (.setColumn (-1) 0xAA) ∧
  decodeTableWord 40 0x2100010A08 = some (.writeRegister 1 0x0A 8) ∧
  decodeTableWord 40 0x3100000200 = some (.setTextAlignment .right) ∧
  decodeTableWord 40 0x10DEADBEEF = some .clear ∧
  decodeTableWord 40 0x1300000000 = none ∧
  decodeTableWord 16 0x0B07 = some (.wScanLimit 7) ∧
  decodeTableWord 16 0x0101 = some (.wRow1 1)

/-! ### The step -/

/-- A step takes the oldest input and is `exec` of the instruction it decodes to, run in the state in which that input has left the
inbox and been counted; a serial word runs at the device that holds it; with no input the block waits. That the host's commands wait in
an inbox (notes/assumptions/9.md), and that a serial word runs by itself at a device (notes/assumptions/10.md), are the model's own
choices. -/
def Obligations.StepRunsTheDecodedInstruction : Prop :=
  (∀ (s : State) (h : Header) (p : List Byte) (rest : List Input) (i : Instr),
    s.inbox = .command h p :: rest → decode (.command h p) = .instr i →
    step s = exec i { s with inbox := rest, draws := s.draws + 1 }) ∧
  (∀ (s : State) (d : Nat) (w : SerialWord) (rest : List Input) (i : Instr),
    s.inbox = .chipWord d w :: rest → decode (.word w) = .instr i →
    step s = exec i { s with inbox := rest, draws := s.draws + 1, actingDevice := d }) ∧
  (∀ s : State, s.inbox = [] → step s = .next s)

/-- Every step keeps the machine's invariant (`State.Inv`): N legal, framebuffer and font in canonical form, the framebuffer inside
its range, texts of legal length, the alignment offset never stale, one chip per device (a host that counted right, R207), a trace of whole
frames, SELECT high once the bus is open or anything was sent. -/
def Obligations.EveryStepKeepsTheInvariant : Prop :=
  ∀ s t : State, s.Inv → step s = .next t → t.Inv

/-- Construction with any legal N meets the invariant, and so does the reset state. -/
def Obligations.ConstructionMeetsTheInvariant : Prop :=
  (∀ n line : Nat, 1 ≤ n → n ≤ 4095 → (State.construct n line).Inv) ∧ State.reset.Inv

/-- What reset leaves (70_reset_and_hazards.md R191, 10_state.md R20): the values of D0 and of the spec's decisions D9 to D12. Nothing
is said of `charWidth` and `SELECT`, which are open; no framebuffer byte holds a value. -/
def Obligations.ResetLeavesTheStatedValues : Prop :=
  (∀ n line : Nat,
    let s := State.construct n line
    s.numDevices = n ∧ s.selectLine = line ∧ (∀ c, readCell s.fb c = none) ∧ s.currentText = [] ∧ s.pendingNextText = [] ∧
    s.scrollCursor = 1 ∧ s.alignmentMode = .left ∧ s.alignmentOffset = 0 ∧ s.rotationEnabled = false ∧
    s.oscillationDirection = .minus ∧ s.busOpen = false ∧ s.tx = []) ∧
  ∃ n line : Nat, State.reset = State.construct n line

/-- No command raises an exception, whatever its operands and the state (60_exceptions.md R170). -/
def Obligations.NoCommandFaults : Prop :=
  ∀ (i : Instr) (s : State) (f : Fault), isCommand i = true → exec i s ≠ .fault f

/-- Every command completes in every state in which its precondition of 70_reset_and_hazards.md R199 holds, and is refused in every
other state. -/
def Obligations.CommandsCompleteExactlyUnderTheirPreconditions : Prop :=
  ∀ (i : Instr) (s : State), isCommand i = true →
    (preconditionHolds i s → ∃ t, exec i s = .next t) ∧ (¬ preconditionHolds i s → ∃ r, exec i s = .refused r)

/-- The access matrix 10_state.md R42: which command may change which state element. The construction parameters, the font and the
model's own fields are changed by none. -/
def Obligations.CommandsWriteOnlyTheirState : Prop :=
  ∀ (i : Instr) (s t : State), isCommand i = true → exec i s = .next t →
    (t.numDevices = s.numDevices ∧ t.selectLine = s.selectLine ∧ t.font = s.font ∧ t.inbox = s.inbox ∧
      t.actingDevice = s.actingDevice ∧ t.draws = s.draws) ∧
    (t.fb ≠ s.fb → i = .clear ∨ (∃ c r, i = .setPixel c r) ∨ (∃ c v, i = .setColumn c v) ∨ i = .drawText ∨
      ∃ x w d, i = .setCustomChar x w d) ∧
    (t.currentText ≠ s.currentText → (∃ x, i = .setText x) ∨ i = .scrollTextLeft) ∧
    (t.pendingNextText ≠ s.pendingNextText → (∃ x, i = .setNextText x) ∨ i = .scrollTextLeft) ∧
    (t.charWidth ≠ s.charWidth → ∃ w, i = .setCharWidth w) ∧
    (t.scrollCursor ≠ s.scrollCursor → (∃ x, i = .setText x) ∨ i = .scrollTextRight ∨ i = .scrollTextLeft ∨ i = .oscillateText) ∧
    (t.alignmentMode ≠ s.alignmentMode → ∃ m, i = .setTextAlignment m) ∧
    (t.alignmentOffset ≠ s.alignmentOffset → (∃ w, i = .setCharWidth w) ∨ (∃ m, i = .setTextAlignment m) ∨ (∃ x, i = .setText x) ∨
      i = .scrollTextLeft) ∧
    (t.rotationEnabled ≠ s.rotationEnabled → ∃ b, i = .setRotate b) ∧
    (t.oscillationDirection ≠ s.oscillationDirection → i = .oscillateText) ∧
    (t.busOpen ≠ s.busOpen → i = .initializeChain) ∧
    (t.select ≠ s.select ∨ t.tx ≠ s.tx ∨ t.chain ≠ s.chain → i = .initializeChain ∨ (∃ d r v, i = .writeRegister d r v) ∨
      (∃ r v, i = .writeRegisterAll r v) ∨ (∃ l, i = .setIntensity l) ∨ i = .commit)

/-- NUM_DEVICES, SELECT_LINE and the font table are the same after every step (10_state.md R22, R40). -/
def Obligations.ConstructionParametersNeverChange : Prop :=
  ∀ s t : State, step s = .next t → t.numDevices = s.numDevices ∧ t.selectLine = s.selectLine ∧ t.font = s.font

/-! ### Framebuffer commands -/

/-- CLEAR (40_framebuffer_ops.md R110): opcode 0x10, every other field ignored; every framebuffer byte becomes 0, nothing else
changes. -/
def Obligations.ClearZeroesEveryColumn : Prop :=
  (∀ (a : BitVec 16) (b c : Byte) (p : List Byte), decode (.command (header 0x10 a b c) p) = .instr .clear) ∧
  ∀ s : State, ∃ m, exec .clear s = .next { s with fb := m } ∧
    (∀ c, c < 8 * s.numDevices → readCell m c = some 0) ∧ ∀ c, 8 * s.numDevices ≤ c → readCell m c = readCell s.fb c

/-- SET_PIXEL (R111): opcode 0x11, column in field a, row in bits 10:8; with the column in range exactly one bit of one column is set,
every other byte and all other state as before; with the column out of range the command is refused (U1). -/
def Obligations.SetPixelSetsOneBitOfOneColumn : Prop :=
  (∀ (a : BitVec 16) (b c : Byte) (p : List Byte),
    decode (.command (header 0x11 a b c) p) = .instr (.setPixel a.toInt (Fin.ofNat 8 b.toNat))) ∧
  (∀ (s : State) (col : Int) (row : Fin 8), 0 ≤ col → col < 8 * (s.numDevices : Int) →
    ∃ m, exec (.setPixel col row) s = .next { s with fb := m } ∧
      (∃ v, readCell m col.toNat = some v ∧
        ∀ r, v.getLsbD r = ((readColumn s col.toNat).getLsbD r || decide (r = row.val))) ∧
      ∀ c, c ≠ col.toNat → readCell m c = readCell s.fb c) ∧
  (∀ (s : State) (col : Int) (row : Fin 8), col < 0 ∨ 8 * (s.numDevices : Int) ≤ col →
    exec (.setPixel col row) s = .refused .pixelColumnOutOfRange)

/-- SET_COLUMN (R112): opcode 0x12, column in field a, value in field c; an in-range column is overwritten whole, any other column leaves the whole state as it was. -/
def Obligations.SetColumnOverwritesOrDrops : Prop :=
  (∀ (a : BitVec 16) (b c : Byte) (p : List Byte), decode (.command (header 0x12 a b c) p) = .instr (.setColumn a.toInt c)) ∧
  (∀ (s : State) (col : Int) (value : Byte), 0 ≤ col → col < 8 * (s.numDevices : Int) →
    ∃ m, exec (.setColumn col value) s = .next { s with fb := m } ∧ readCell m col.toNat = some value ∧
      ∀ c, c ≠ col.toNat → readCell m c = readCell s.fb c) ∧
  (∀ (s : State) (col : Int) (value : Byte), col < 0 ∨ 8 * (s.numDevices : Int) ≤ col →
    exec (.setColumn col value) s = .next s)

/-- The laws R113 (a) to (d) of the framebuffer commands, over a framebuffer in canonical form: the second SET_COLUMN wins; SET_COLUMN
then SET_PIXEL gives v | (1 << r); two SET_PIXEL commute; SET_COLUMN on different columns commute; CLEAR is SET_COLUMN c, 0 for every in-range c. -/
def Obligations.FramebufferCommandLaws : Prop :=
  ∀ s : State, Memory.wf s.fb = true →
    (∀ (c : Int) (v w : Byte), execAll [.setColumn c v, .setColumn c w] s = exec (.setColumn c w) s) ∧
    (∀ (c : Int) (v : Byte) (r : Fin 8), 0 ≤ c → c < 8 * (s.numDevices : Int) →
      execAll [.setColumn c v, .setPixel c r] s = exec (.setColumn c (v ||| (1#8 <<< r.val))) s) ∧
    (∀ (c c' : Int) (r r' : Fin 8), execAll [.setPixel c r, .setPixel c' r'] s = execAll [.setPixel c' r', .setPixel c r] s) ∧
    (∀ (c c' : Int) (v v' : Byte), c ≠ c' → execAll [.setColumn c v, .setColumn c' v'] s = execAll [.setColumn c' v', .setColumn c v] s) ∧
    exec .clear s = execAll ((List.range (8 * s.numDevices)).map fun c : Nat => .setColumn (c : Int) 0) s

/-- Repeating CLEAR, SET_COLUMN, SET_PIXEL, SET_ROTATE, SET_CHAR_WIDTH, SET_TEXT_ALIGNMENT or SET_NEXT_TEXT with the same operands
gives the same state (20_memory.md R59). -/
def Obligations.RepeatingASetterChangesNothing : Prop :=
  ∀ (i : Instr) (s t : State), Memory.wf s.fb = true →
    (i = .clear ∨ (∃ c v, i = .setColumn c v) ∨ (∃ c r, i = .setPixel c r) ∨ (∃ b, i = .setRotate b) ∨ (∃ w, i = .setCharWidth w) ∨
      (∃ m, i = .setTextAlignment m) ∨ ∃ x, i = .setNextText x) →
    exec i s = .next t → exec i t = .next t

/-! ### Serial commands -/

/-- WRITE_REGISTER (41_serial_transmit.md R121, R120): one frame of N words, slot N−1 first (the spec's choices C3, D6), the target's
word in its slot and zero in every other; SELECT ends high; nothing else of the block changes. A device out of range is refused (U5; the
model refuses, notes/assumptions/17.md). -/
def Obligations.WriteRegisterSendsOneFrame : Prop :=
  (∀ (s : State) (d : Nat) (reg v : Byte), s.busOpen = true → d < s.numDevices →
    ∃ ch, exec (.writeRegister d reg v) s = .next { s with
      tx := s.tx ++ (.selAssert ::
        ((List.range s.numDevices).reverse.map fun k => .word (if k = d then serialWord reg v else 0)) ++ [.selDeassert])
      select := .high
      chain := ch }) ∧
  ∀ (s : State) (d : Int) (reg v : Byte), s.busOpen = true → d < 0 ∨ (s.numDevices : Int) ≤ d →
    exec (.writeRegister d reg v) s = .refused .deviceOutOfRange

/-- WRITE_REGISTER_ALL (R122): one frame per device, ascending (the spec's decision D7), each with the word in that device's slot, slot
N−1 first (C3, D6). -/
def Obligations.WriteRegisterAllSendsOneFramePerDevice : Prop :=
  ∀ (s : State) (reg v : Byte), s.busOpen = true → 1 ≤ s.numDevices →
    ∃ ch, exec (.writeRegisterAll reg v) s = .next { s with
      tx := s.tx ++ (List.range s.numDevices).flatMap fun d =>
        .selAssert :: ((List.range s.numDevices).reverse.map fun k => .word (if k = d then serialWord reg v else 0)) ++ [.selDeassert]
      select := .high
      chain := ch }

/-- SET_INTENSITY (R123): opcode 0x23, level in field c; with the bus open it completes, for any level, as WRITE_REGISTER_ALL of
REG_INTENSITY and that level. -/
def Obligations.SetIntensityWritesTheIntensityRegisterOfAll : Prop :=
  (∀ (a : BitVec 16) (b c : Byte) (p : List Byte), decode (.command (header 0x23 a b c) p) = .instr (.setIntensity c)) ∧
  ∀ (s : State) (level : Byte), s.busOpen = true →
    ∃ t, exec (.setIntensity level) s = .next t ∧ exec (.writeRegisterAll Config.regIntensity level) s = .next t

/-- INITIALIZE (R125): the word-less select pulse, then for each device in ascending order (the spec's decision D7) the five setup
frames in their order, slot N−1 first (C3, D6); BUS_OPEN becomes true, SELECT ends high, nothing else of the block changes. The register
numbers 0x0B, 0x09, 0x0F, 0x0A, 0x0C in the frames are presumed (30_encoding.md R83, GK1, decision D13; notes/assumptions/8.md). -/
def Obligations.InitializeSendsThePulseAndTheSetupFrames : Prop :=
  ∀ s : State, ∃ ch, exec .initializeChain s = .next { s with
    tx := s.tx ++ [.selAssert, .selDeassert] ++ (List.range s.numDevices).flatMap fun d =>
      [serialWord 0x0B 7, serialWord 0x09 0, serialWord 0x0F 0, serialWord 0x0A 0, serialWord 0x0C 1].flatMap fun w =>
        .selAssert :: ((List.range s.numDevices).reverse.map fun k => .word (if k = d then w else 0)) ++ [.selDeassert]
    busOpen := true
    select := .high
    chain := ch }

/-- COMMIT (R126, 20_memory.md R53): eight frames in ascending r, frame r carrying FB[8d + r] to row register r + 1 of every device d,
slot N−1 first; the framebuffer does not change. It rests on the spec's resolutions C1 and C3 and its decisions D6 and D8; a byte that
nothing has written is a free value (notes/assumptions/6.md). -/
def Obligations.CommitSendsEightFrames : Prop :=
  ∀ s : State, s.busOpen = true →
    ∃ ch, exec .commit s = .next { s with
      tx := s.tx ++ (List.range 8).flatMap fun r =>
        .selAssert :: ((List.range s.numDevices).reverse.map fun d =>
          .word (serialWord (BitVec.ofNat 8 (r + 1)) (readColumn s (8 * d + r)))) ++ [.selDeassert]
      select := .high
      chain := ch }

/-- The event counts of R127. -/
def Obligations.TransmittingCommandsAppendTheStatedNumberOfEvents : Prop :=
  ∀ (s t : State),
    (∀ d reg v, exec (.writeRegister d reg v) s = .next t → t.tx.length = s.tx.length + (s.numDevices + 2)) ∧
    (∀ reg v, exec (.writeRegisterAll reg v) s = .next t → t.tx.length = s.tx.length + s.numDevices * (s.numDevices + 2)) ∧
    (∀ level, exec (.setIntensity level) s = .next t → t.tx.length = s.tx.length + s.numDevices * (s.numDevices + 2)) ∧
    (exec .initializeChain s = .next t → t.tx.length = s.tx.length + (2 + 5 * s.numDevices * (s.numDevices + 2))) ∧
    (exec .commit s = .next t → t.tx.length = s.tx.length + 8 * (s.numDevices + 2))

/-- A transmitting command while BUS_OPEN is false is refused (10_state.md R23, U7, decision D11). That WRITE_REGISTER with a device
out of range answers this refusal too is the model's order of checks (notes/assumptions/17.md). -/
def Obligations.TransmittingNeedsAnOpenBus : Prop :=
  ∀ s : State, s.busOpen = false →
    (∀ d reg v, exec (.writeRegister d reg v) s = .refused .busNotOpen) ∧
    (∀ reg v, exec (.writeRegisterAll reg v) s = .refused .busNotOpen) ∧
    (∀ level, exec (.setIntensity level) s = .refused .busNotOpen) ∧ exec .commit s = .refused .busNotOpen

/-! ### Delivery to the chain -/

/-- A frame of N words gives every device with a chip exactly one word: the word built for slot d is the word device d holds when SELECT
is deasserted (20_memory.md R66), and a zero word leaves the chip's registers as they were (R68). That shifting the words through the
chain does this rests on the model's chain (notes/assumptions/11.md, deduced, with the spec's item GK4). -/
def Obligations.AFrameGivesEachDeviceTheWordOfItsSlot : Prop :=
  ∀ (s : State) (w : List SerialWord), w.length = s.numDevices →
    (txFrame w s).chain.length = s.chain.length ∧
    ∀ (d : Nat) (c : Chip) (v : SerialWord), s.chain[d]? = some c → w[d]? = some v →
      ∃ c', (txFrame w s).chain[d]? = some c' ∧ c'.stage = v ∧
        (v = 0 → c' = { c with stage := 0 })

/-- WRITE_REGISTER changes the registers of its target alone: with a mapped address (and, for the intensity register 0x0A, a value up to
15) the target holds the value there and its other registers as before; every other device's chip only shifts (20_memory.md R66, R68). The
model's choices in it: the chain (notes/assumptions/11.md), the register numbers (8.md), a data byte kept whole (23.md), and that a chip
put to sleep or to display test keeps its other registers (25.md). -/
def Obligations.WriteRegisterReachesItsTargetAlone : Prop :=
  ∀ (s t : State) (d : Nat) (reg v : Byte), exec (.writeRegister d reg v) s = .next t →
    (∀ c, s.chain[d]? = some c → (chipRegister c reg).isSome → (reg = 0x0A → v.toNat ≤ 15) →
      ∃ c', t.chain[d]? = some c' ∧ chipRegister c' reg = some v ∧ ∀ a, a ≠ reg → chipRegister c' a = chipRegister c a) ∧
    (∀ k c, k ≠ d → k < s.numDevices → s.chain[k]? = some c → t.chain[k]? = some { c with stage := 0 })

/-- WRITE_REGISTER_ALL with a mapped address (and, for the intensity register 0x0A, a value up to 15) leaves the chip of every device
with the value in that register and its other registers as before (R122, 60_exceptions.md R179). The model's choices in it: the chain
(notes/assumptions/11.md), the register numbers (8.md), a data byte kept whole (23.md), and that a chip put to sleep or to display test
keeps its other registers (25.md). -/
def Obligations.WriteRegisterAllReachesEveryDevice : Prop :=
  ∀ (s t : State) (reg v : Byte), exec (.writeRegisterAll reg v) s = .next t → (reg = 0x0A → v.toNat ≤ 15) →
    ∀ (d : Nat) (c : Chip), d < s.numDevices → s.chain[d]? = some c → (chipRegister c reg).isSome →
      ∃ c', t.chain[d]? = some c' ∧ chipRegister c' reg = some v ∧ ∀ a, a ≠ reg → chipRegister c' a = chipRegister c a

/-- After INITIALIZE the chip of every device has scan-limit 7, decode-mode 0, display-test 0, intensity 0 and shutdown 1, whatever it
held before (R125, 60_exceptions.md R179, R182). It rests on the model's chain (notes/assumptions/11.md) and on chips that store what
they receive while they sleep (25.md). -/
def Obligations.InitializeConfiguresEveryChip : Prop :=
  ∀ s : State, ∃ t, exec .initializeChain s = .next t ∧ t.chain.length = s.chain.length ∧
    ∀ (d : Nat) (c : Chip), d < s.numDevices → t.chain[d]? = some c →
      c.scanLimit = 7 ∧ c.decodeMode = 0 ∧ c.displayTest = 0 ∧ c.intensity = 0 ∧ c.shutdown = 1

/-- After COMMIT row register r + 1 of device d holds FB[8d + r] and every other register of its chip is as before (60_exceptions.md
R179, 20_memory.md R53), whether the chip sleeps or not (the model's choice, notes/assumptions/25.md). It rests on the model's chain
(11.md). -/
def Obligations.CommitLoadsTheRowRegisters : Prop :=
  ∀ s : State, s.busOpen = true →
    ∃ t, exec .commit s = .next t ∧ t.chain.length = s.chain.length ∧
      ∀ (d : Nat) (c : Chip), d < s.numDevices → s.chain[d]? = some c →
        ∃ c', t.chain[d]? = some c' ∧
          (∀ r, r < 8 → chipRegister c' (BitVec.ofNat 8 (r + 1)) = some (readColumn s (8 * d + r))) ∧
          ∀ a : Byte, 8 < a.toNat → chipRegister c' a = chipRegister c a

/-- A serial word run by itself completes at a device of the chain: that chip stores the data byte in the register of the row
(20_memory.md R68; intensity data up to 15), its other registers and everything else stay. That such a word runs by itself at the acting
device is the model's choice (notes/assumptions/10.md), the control register numbers are presumed (8.md), the byte is kept whole (23.md),
and a chip put to sleep or to display test keeps its other registers (25.md). -/
def Obligations.SerialWordsStoreTheirRegister : Prop :=
  ∀ (s : State) (c : Chip) (data : Byte) (i : Instr) (addr : Byte),
    s.chain[s.actingDevice]? = some c →
    (i, addr) ∈ [(.wRow1 data, 0x01), (.wRow2 data, 0x02), (.wRow3 data, 0x03), (.wRow4 data, 0x04), (.wRow5 data, 0x05),
      (.wRow6 data, 0x06), (.wRow7 data, 0x07), (.wRow8 data, 0x08), (.wDecodeMode data, 0x09), (.wIntensity data, 0x0A),
      (.wScanLimit data, 0x0B), (.wShutdown data, 0x0C), ((.wDisplayTest data, 0x0F) : Instr × Byte)] →
    (i = .wIntensity data → data.toNat ≤ 15) →
    ∃ c', exec i s = .next { s with chain := s.chain.set s.actingDevice c' } ∧ chipRegister c' addr = some data ∧
      c'.stage = serialWord addr data ∧ ∀ a, a ≠ addr → chipRegister c' a = chipRegister c a

/-- W_NOOP completes and leaves every register of the chip as it is (30_encoding.md R84, 20_memory.md R68). That it runs by itself at
the acting device is the model's choice (notes/assumptions/10.md). -/
def Obligations.NoOpWordChangesNoRegister : Prop :=
  ∀ (s : State) (c : Chip), s.chain[s.actingDevice]? = some c →
    exec .wNoop s = .next { s with chain := s.chain.set s.actingDevice { c with stage := 0 } }

/-- W_INTENSITY with data above 15 completes; the intensity register is left open (U4), every other register and everything else stays.
That it runs by itself at the acting device (notes/assumptions/10.md), and that the intensity register alone is left open (7.md), are the
model's choices. -/
def Obligations.IntensityAboveFifteenLeavesTheOtherRegisters : Prop :=
  ∀ (s : State) (c : Chip) (data : Byte), s.chain[s.actingDevice]? = some c → 15 < data.toNat →
    ∃ c', exec (.wIntensity data) s = .next { s with chain := s.chain.set s.actingDevice c' } ∧
      ∀ a, a ≠ 0x0A → chipRegister c' a = chipRegister c a

/-- A serial word run by itself changes the acting device's chip alone, faults where the chain has no such chip, and is never refused (the
model's choice, notes/assumptions/10.md and 21.md). -/
def Obligations.SerialWordsTouchOneChip : Prop :=
  ∀ (i : Instr) (s : State), isCommand i = false →
    (s.actingDevice < s.chain.length →
      ∃ ch, exec i s = .next { s with chain := ch } ∧ ch.length = s.chain.length ∧ ∀ k, k ≠ s.actingDevice → ch[k]? = s.chain[k]?) ∧
    (s.chain.length ≤ s.actingDevice → exec i s = .fault .noSuchDevice)

/-- A word outside the chip's map, left at a device of the chain, changes that device's chip alone; what the chip does is open (U9). That
a word can be left at a chip (notes/assumptions/10.md), and that no neighbour changes (7.md), are the model's choices. -/
def Obligations.UnmappedWordTouchesOneChip : Prop :=
  ∀ (s : State) (d : Nat) (w : SerialWord) (rest : List Input), s.inbox = .chipWord d w :: rest → decode (.word w) = .unmapped w →
    d < s.chain.length →
    ∃ ch, step s = .next { s with inbox := rest, draws := s.draws + 1, actingDevice := d, chain := ch } ∧
      ch.length = s.chain.length ∧ ∀ k, k ≠ d → ch[k]? = s.chain[k]?

/-! ### Text state commands -/

/-- `tdiv` and `trem` are truncating division (00_scope.md R11): a = b × tdiv + trem, the remainder is smaller than the divisor, zero or
of the dividend's sign, and the divisor's sign does not change it; for a ≥ 0 and b > 0 they are floor division and modulus. -/
def Obligations.RemainderTruncatesTowardZero : Prop :=
  ∀ a b : Int, b ≠ 0 →
    (0 ≤ a → 0 < b → tdiv a b = a / b ∧ trem a b = a % b) ∧
    trem a b = a - b * tdiv a b ∧ |trem a b| < |b| ∧ (trem a b = 0 ∨ (0 < trem a b ↔ 0 < a) ∧ (trem a b < 0 ↔ a < 0)) ∧
    |b * tdiv a b| ≤ |a| ∧ trem a (-b) = trem a b

/-- SET_TEXT_ALIGNMENT (42_text_state_ops.md R142), opcode 0x31 with the mode in bits 9:8, sets the mode and the offset AO of R140, and
nothing else. -/
def Obligations.SetTextAlignmentComputesTheOffset : Prop :=
  (∀ (a : BitVec 16) (b c : Byte) (p : List Byte),
    decode (.command (header 0x31 a b c) p) = .instr (.setTextAlignment (modeOfCode (b.toNat % 4)))) ∧
  ∀ s : State,
    let columns : Int := s.currentText.length * s.charWidth.toNat
    let display : Int := 8 * s.numDevices
    exec (.setTextAlignment .left) s = .next { s with alignmentMode := .left, alignmentOffset := 0 } ∧
    exec (.setTextAlignment .leftEnd) s = .next { s with alignmentMode := .leftEnd, alignmentOffset := display } ∧
    exec (.setTextAlignment .right) s = .next { s with alignmentMode := .right, alignmentOffset := columns - display } ∧
    exec (.setTextAlignment .rightEnd) s = .next { s with alignmentMode := .rightEnd, alignmentOffset := -columns }

/-- SET_CHAR_WIDTH (R141): opcode 0x30, width in field b; sets W and recomputes the offset from it; the cursor and everything else stay. -/
def Obligations.SetCharWidthRecomputesTheOffset : Prop :=
  (∀ (a : BitVec 16) (b c : Byte) (p : List Byte), decode (.command (header 0x30 a b c) p) = .instr (.setCharWidth b)) ∧
  ∀ (s : State) (w : Byte),
    exec (.setCharWidth w) s = .next { s with
      charWidth := w
      alignmentOffset := match s.alignmentMode with
        | .left => 0
        | .leftEnd => 8 * s.numDevices
        | .right => s.currentText.length * w.toNat - 8 * s.numDevices
        | .rightEnd => -(s.currentText.length * w.toNat) }

/-- SET_TEXT (R143): the text, the cursor at 1, the offset recomputed; the staged text, the direction, the rotation and everything else
stay (decision D26). -/
def Obligations.SetTextResetsTheCursorToOne : Prop :=
  ∀ (s : State) (text : List Byte),
    exec (.setText text) s = .next { s with
      currentText := text
      scrollCursor := 1
      alignmentOffset := match s.alignmentMode with
        | .left => 0
        | .leftEnd => 8 * s.numDevices
        | .right => text.length * s.charWidth.toNat - 8 * s.numDevices
        | .rightEnd => -(text.length * s.charWidth.toNat) }

/-- SET_NEXT_TEXT (R144): opcode 0x33, the text its payload; replaces the staged text (an empty payload un-stages) and changes nothing
else; only SCROLL_TEXT_LEFT ever consumes the staged text. -/
def Obligations.SetNextTextStagesItsPayload : Prop :=
  (∀ (a : BitVec 16) (b c : Byte) (p : List Byte), p.length < 65536 →
    decode (.command (header 0x33 a b c) p) = .instr (.setNextText p)) ∧
  (∀ (s : State) (text : List Byte), exec (.setNextText text) s = .next { s with pendingNextText := text }) ∧
  ∀ (i : Instr) (s t : State), exec i s = .next t → t.pendingNextText ≠ s.pendingNextText →
    (∃ text, i = .setNextText text) ∨ i = .scrollTextLeft

/-- SET_ROTATE (R145): opcode 0x34, the operand in bit 8; the flag becomes the operand, not the inverse of the old flag, and nothing
else changes: the framebuffer is not redrawn. -/
def Obligations.SetRotateTakesItsOperand : Prop :=
  (∀ (a : BitVec 16) (b c : Byte) (p : List Byte), decode (.command (header 0x34 a b c) p) = .instr (.setRotate (b.getLsbD 0))) ∧
  ∀ (s : State) (enabled : Bool), exec (.setRotate enabled) s = .next { s with rotationEnabled := enabled }

/-- SCROLL_TEXT_RIGHT (R147): opcode 0x35; refused for an empty text (U3) or a zero divisor (U2); otherwise the cursor becomes the truncating
remainder of cursor + 1 by L × W − 5 and nothing else changes. -/
def Obligations.ScrollTextRightStepsTheCursor : Prop :=
  (∀ (a : BitVec 16) (b c : Byte) (p : List Byte), decode (.command (header 0x35 a b c) p) = .instr .scrollTextRight) ∧
  ∀ s : State,
    let m : Int := s.currentText.length * s.charWidth.toNat - 5
    (s.currentText.length = 0 → exec .scrollTextRight s = .refused .emptyText) ∧
    (1 ≤ s.currentText.length → m = 0 → exec .scrollTextRight s = .refused .zeroDivisor) ∧
    (1 ≤ s.currentText.length → m ≠ 0 →
      exec .scrollTextRight s = .next { s with scrollCursor := (s.scrollCursor + 1).tmod m })

/-- From a cursor between 0 and |m| − 1, m = L × W − 5, SCROLL_TEXT_RIGHT moves to the next one and from |m| − 1 to 0; a cursor below
−1 climbs by one as long as it is above −|m| (R147 (d), (e)). -/
def Obligations.ScrollTextRightCyclesBelowItsDivisor : Prop :=
  ∀ s : State,
    let m : Int := s.currentText.length * s.charWidth.toNat - 5
    1 ≤ s.currentText.length → m ≠ 0 →
    (0 ≤ s.scrollCursor → s.scrollCursor + 1 < |m| →
      exec .scrollTextRight s = .next { s with scrollCursor := s.scrollCursor + 1 }) ∧
    (s.scrollCursor + 1 = |m| → exec .scrollTextRight s = .next { s with scrollCursor := 0 }) ∧
    (s.scrollCursor < 0 → -|m| < s.scrollCursor + 1 →
      exec .scrollTextRight s = .next { s with scrollCursor := s.scrollCursor + 1 })

/-- SCROLL_TEXT_LEFT (R148): opcode 0x36; refused for an empty text (U3); otherwise the cursor becomes the truncating remainder of cursor − 1 by
L × W + 8N, and exactly when that is 0 and a text is staged the texts swap and the offset is recomputed; nothing else changes. -/
def Obligations.ScrollTextLeftStepsAndSwaps : Prop :=
  (∀ (a : BitVec 16) (b c : Byte) (p : List Byte), decode (.command (header 0x36 a b c) p) = .instr .scrollTextLeft) ∧
  ∀ s : State,
    let cursor : Int := (s.scrollCursor - 1).tmod (s.currentText.length * s.charWidth.toNat + 8 * s.numDevices)
    (s.currentText.length = 0 → exec .scrollTextLeft s = .refused .emptyText) ∧
    (1 ≤ s.currentText.length → cursor ≠ 0 ∨ s.pendingNextText = [] →
      exec .scrollTextLeft s = .next { s with scrollCursor := cursor }) ∧
    (1 ≤ s.currentText.length → cursor = 0 → s.pendingNextText ≠ [] →
      exec .scrollTextLeft s = .next { s with
        scrollCursor := 0
        currentText := s.pendingNextText
        pendingNextText := []
        alignmentOffset := match s.alignmentMode with
          | .left => 0
          | .leftEnd => 8 * s.numDevices
          | .right => s.pendingNextText.length * s.charWidth.toNat - 8 * s.numDevices
          | .rightEnd => -(s.pendingNextText.length * s.charWidth.toNat) })

/-- From cursor 0, repeated SCROLL_TEXT_LEFT gives −1, −2, … and returns to 0 exactly once per cycle of L × W + 8N calls; a staged text
swaps in at that call and at no earlier one (R148 (d), D0 §8). -/
def Obligations.ScrollTextLeftReturnsToZeroOncePerCycle : Prop :=
  ∀ s : State, 1 ≤ s.numDevices → 1 ≤ s.currentText.length → s.scrollCursor = 0 →
    let m := s.currentText.length * s.charWidth.toNat + 8 * s.numDevices
    (∀ k, k < m → execAll (List.replicate k .scrollTextLeft) s = .next { s with scrollCursor := -(k : Int) }) ∧
    (s.pendingNextText = [] → execAll (List.replicate m .scrollTextLeft) s = .next s) ∧
    (s.pendingNextText ≠ [] → execAll (List.replicate m .scrollTextLeft) s = .next { s with
      currentText := s.pendingNextText
      pendingNextText := []
      alignmentOffset := alignmentOffsetOf s.alignmentMode (s.pendingNextText.length * s.charWidth.toNat) (8 * s.numDevices) })

/-- A text staged before the first SCROLL_TEXT_LEFT after SET_TEXT is swapped in by that call (70_reset_and_hazards.md R201). -/
def Obligations.AStagedTextSwapsAtTheFirstScrollAfterSetText : Prop :=
  ∀ (s : State) (text next : List Byte), text ≠ [] → next ≠ [] →
    ∃ t, execAll [.setText text, .setNextText next, .scrollTextLeft] s = .next t ∧
      t.currentText = next ∧ t.pendingNextText = [] ∧ t.scrollCursor = 0

/-- OSCILLATE_TEXT (R149): opcode 0x37; nothing when L × W fits in 8N; otherwise the left check, the right check, one
step of the cursor by +1 or −1 (`directionStep`, R33). -/
def Obligations.OscillateTextBounces : Prop :=
  (∀ (a : BitVec 16) (b c : Byte) (p : List Byte), decode (.command (header 0x37 a b c) p) = .instr .oscillateText) ∧
  ∀ s : State,
    let columns : Int := s.currentText.length * s.charWidth.toNat
    let display : Int := 8 * s.numDevices
    let afterLeft := if s.scrollCursor - display ≤ -columns then Direction.plus else s.oscillationDirection
    let afterRight := if 0 ≤ s.scrollCursor then Direction.minus else afterLeft
    (columns ≤ display → exec .oscillateText s = .next s) ∧
    (display < columns → exec .oscillateText s = .next { s with
      oscillationDirection := afterRight
      scrollCursor := s.scrollCursor + directionStep afterRight })

/-- On a text that fits, any number of OSCILLATE_TEXT changes nothing (R149 (a), D0 §8). -/
def Obligations.OscillationOfAFittingTextNeverMoves : Prop :=
  ∀ (s : State) (k : Nat), s.currentText.length * s.charWidth.toNat ≤ 8 * s.numDevices →
    execAll (List.replicate k .oscillateText) s = .next s

/-- Once between 8N − L × W and 0, the cursor stays there for any number of OSCILLATE_TEXT (R149 (d)). -/
def Obligations.OscillationStaysBetweenItsExtremes : Prop :=
  ∀ (s : State) (k : Nat),
    let low : Int := 8 * s.numDevices - s.currentText.length * s.charWidth.toNat
    low < 0 → low ≤ s.scrollCursor → s.scrollCursor ≤ 0 →
    ∃ t, execAll (List.replicate k .oscillateText) s = .next t ∧ low ≤ t.scrollCursor ∧ t.scrollCursor ≤ 0

/-- The alignment offset is never stale after any instruction (10_state.md R31, 42_text_state_ops.md R151). -/
def Obligations.AlignmentOffsetIsNeverStale : Prop :=
  ∀ (i : Instr) (s t : State), offsetFresh s → exec i s = .next t → offsetFresh t

/-! ### Render commands -/

/-- SET_CUSTOM_CHAR with rotation off (43_render_ops.md R160, R161, R164): each in-range position x + col, col < width, takes the
bitmap's byte; every other byte of memory and all other state stay. A payload shorter than width is refused (U11). -/
def Obligations.CustomCharOverwritesItsColumns : Prop :=
  (∀ (s : State) (x : Int) (width : Byte) (data : List Byte), s.rotationEnabled = false → width.toNat ≤ data.length →
    ∃ m, exec (.setCustomChar x width data) s = .next { s with fb := m } ∧
      (∀ (col c : Nat) (b : Byte), col < width.toNat → data[col]? = some b → (c : Int) = x + col → c < 8 * s.numDevices →
        readCell m c = some b) ∧
      ∀ c : Nat, ((c : Int) < x ∨ x + width.toNat ≤ c ∨ 8 * s.numDevices ≤ c) → readCell m c = readCell s.fb c) ∧
  (∀ (s : State) (x : Int) (width : Byte) (data : List Byte), data.length < width.toNat →
    exec (.setCustomChar x width data) s = .refused .bitmapTooShort)

/-- SET_CUSTOM_CHAR with rotation on (R162, R164): a pixel is lit afterwards exactly if it was lit or a set bit `row` of the bitmap's
byte at an in-range position p = x + col maps to it: column (p / 8) × 8 + row, bit 7 − p mod 8. A column no set bit maps to, and all
other state, stay. -/
def Obligations.RotatedCustomCharSetsItsPixels : Prop :=
  ∀ (s : State) (x : Int) (width : Byte) (data : List Byte), s.rotationEnabled = true → width.toNat ≤ data.length →
    let lights := fun (c r : Nat) => ∃ (col : Nat) (b : Byte) (row p : Nat),
      col < width.toNat ∧ data[col]? = some b ∧ row < 8 ∧ b.getLsbD row = true ∧ (p : Int) = x + col ∧ p < 8 * s.numDevices ∧
      c = p / 8 * 8 + row ∧ r = 7 - p % 8
    ∃ m, exec (.setCustomChar x width data) s = .next { s with fb := m } ∧
      (∀ c r, pixel { s with fb := m } c r = true ↔ pixel s c r = true ∨ lights c r) ∧
      ∀ c, (∀ r, ¬ lights c r) → readCell m c = readCell s.fb c

/-- DRAW_TEXT with rotation off (R160, R161, R163): glyph column col of character i lands at i × W + col + cursor + offset when that is
in range; every other byte of memory and all other state stay. Text to draw with W above 8 is refused (U6). -/
def Obligations.DrawTextPlacesEveryGlyphColumn : Prop :=
  (∀ s : State, s.rotationEnabled = false → (s.currentText = [] ∨ s.charWidth.toNat ≤ 8) →
    ∃ m, exec .drawText s = .next { s with fb := m } ∧
      (∀ (i col c : Nat) (code : Byte), s.currentText[i]? = some code → col < s.charWidth.toNat →
        (c : Int) = i * s.charWidth.toNat + col + s.scrollCursor + s.alignmentOffset → c < 8 * s.numDevices →
        readCell m c = some (fontByte s code col)) ∧
      ∀ c : Nat, ((∀ i col : Nat, i < s.currentText.length → col < s.charWidth.toNat →
          (c : Int) ≠ i * s.charWidth.toNat + col + s.scrollCursor + s.alignmentOffset) ∨ 8 * s.numDevices ≤ c) →
        readCell m c = readCell s.fb c) ∧
  (∀ s : State, s.currentText ≠ [] → 8 < s.charWidth.toNat → exec .drawText s = .refused .glyphTooWide)

/-- DRAW_TEXT with rotation on (R162, R163): a pixel is lit afterwards exactly if it was lit or a set bit of a glyph column at an
in-range position maps to it; a column no set bit maps to, and all other state, stay. -/
def Obligations.RotatedDrawTextSetsItsPixels : Prop :=
  ∀ s : State, s.rotationEnabled = true → (s.currentText = [] ∨ s.charWidth.toNat ≤ 8) →
    let lights := fun (c r : Nat) => ∃ (i col row p : Nat) (code : Byte),
      s.currentText[i]? = some code ∧ col < s.charWidth.toNat ∧ row < 8 ∧ (fontByte s code col).getLsbD row = true ∧
      (p : Int) = i * s.charWidth.toNat + col + s.scrollCursor + s.alignmentOffset ∧ p < 8 * s.numDevices ∧
      c = p / 8 * 8 + row ∧ r = 7 - p % 8
    ∃ m, exec .drawText s = .next { s with fb := m } ∧
      (∀ c r, pixel { s with fb := m } c r = true ↔ pixel s c r = true ∨ lights c r) ∧
      ∀ c, (∀ r, ¬ lights c r) → readCell m c = readCell s.fb c

/-- From a cleared framebuffer and one glyph whose positions all lie in device q, the rotated picture is the plain one turned by a
quarter: B[8q + r][7 − c] = A[8q + c][r] (R165), for a bitmap of SET_CUSTOM_CHAR and for a one-character text of DRAW_TEXT. -/
def Obligations.RotationIsAQuarterTurn : Prop :=
  (∀ (s : State) (q : Nat) (x : Int) (width : Byte) (data : List Byte),
    (∀ c, c < 8 * s.numDevices → readCell s.fb c = some 0) → q < s.numDevices → width.toNat ≤ data.length →
    (8 * q : Int) ≤ x → x + width.toNat ≤ 8 * q + 8 →
    ∃ a b, exec (.setCustomChar x width data) { s with rotationEnabled := false } = .next a ∧
      exec (.setCustomChar x width data) { s with rotationEnabled := true } = .next b ∧
      ∀ c r, c < 8 → r < 8 → pixel b (8 * q + r) (7 - c) = pixel a (8 * q + c) r) ∧
  ∀ (s : State) (q : Nat) (code : Byte),
    (∀ c, c < 8 * s.numDevices → readCell s.fb c = some 0) → q < s.numDevices → s.currentText = [code] → s.charWidth.toNat ≤ 8 →
    (8 * q : Int) ≤ s.scrollCursor + s.alignmentOffset → s.scrollCursor + s.alignmentOffset + s.charWidth.toNat ≤ 8 * q + 8 →
    ∃ a b, exec .drawText { s with rotationEnabled := false } = .next a ∧
      exec .drawText { s with rotationEnabled := true } = .next b ∧
      ∀ c r, c < 8 → r < 8 → pixel b (8 * q + r) (7 - c) = pixel a (8 * q + c) r

/-- The abort of the rotated path never fires when Render is entered through R160: `render` always answers `done` (R162). -/
def Obligations.TheRotatedAbortNeverFires : Prop :=
  ∀ (base : Int) (bytes : List Byte) (s : State), ∃ t, render base bytes s = .done t

/-- DRAW_TEXT with an empty text or W = 0 draws nothing (R163 (b)). -/
def Obligations.DrawTextOfNothingDrawsNothing : Prop :=
  ∀ s : State, s.currentText = [] ∨ s.charWidth = 0 → exec .drawText s = .next s

/-! ### A miscounted chain, a chip that lost power -/

/-- A frame on a chain of any number of chips (20_memory.md R69, 70_reset_and_hazards.md R196): the chip at place k, counted from the
block, holds the k-th of the frame's words followed by the words the chips held before, so that with too few words the far chips receive
stale words and with too many the first words fall off the end; and no step changes how many chips are chained. That is how the model's
chain shifts (notes/assumptions/11.md, 22.md; the spec's item GK4). -/
def Obligations.AMiscountedChainReceivesStaleWords : Prop :=
  (∀ (s : State) (w : List SerialWord), (txFrame w s).chain.map Chip.stage = (w ++ s.chain.map Chip.stage).take s.chain.length) ∧
  (∀ (s : State) (d : Nat) (reg v : Byte) (k : Nat) (c near : Chip), s.busOpen = true → d < s.numDevices →
    s.chain[k + s.numDevices]? = some c → s.chain[k]? = some near →
    ∃ t c', exec (.writeRegister d reg v) s = .next t ∧ t.chain[k + s.numDevices]? = some c' ∧ c'.stage = near.stage) ∧
  ∀ s t : State, step s = .next t → t.chain.length = s.chain.length

/-- A chip that lost power changes alone, to values nothing is known of, while the block notices nothing; a place past the end of the chain
has no chip to lose, and that the machine faults there with noSuchDevice is the model's choice (notes/assumptions/21.md), since the spec is
silent. Re-issuing INITIALIZE and COMMIT, in any state, leaves the chip of every device with the five setup values and the framebuffer's
bytes (70_reset_and_hazards.md R204). That power is lost between two commands, and what it leaves, is the model's choice
(notes/assumptions/27.md); the chain and the sleeping chip are 11.md and 25.md. -/
def Obligations.AChipThatLostPowerIsRestored : Prop :=
  (∀ (s : State) (d : Nat) (rest : List Input), s.inbox = .chipPowerLoss d :: rest →
    (d < s.chain.length → ∃ ch, step s = .next { s with inbox := rest, draws := s.draws + 1, chain := ch } ∧
      ch.length = s.chain.length ∧ ∀ k, k ≠ d → ch[k]? = s.chain[k]?) ∧
    (s.chain.length ≤ d → step s = .fault .noSuchDevice)) ∧
  ∀ s : State, ∃ t, execAll [.initializeChain, .commit] s = .next t ∧ t.chain.length = s.chain.length ∧ t.fb = s.fb ∧
    ∀ (d : Nat) (c : Chip), d < s.numDevices → t.chain[d]? = some c →
      c.scanLimit = 7 ∧ c.decodeMode = 0 ∧ c.displayTest = 0 ∧ c.intensity = 0 ∧ c.shutdown = 1 ∧
      ∀ r, r < 8 → chipRegister c (BitVec.ofNat 8 (r + 1)) = some (readColumn s (8 * d + r))
end

