-- ==== Sys2Proof/Laws/Memory.lean ====
section
/-! SUPPORT. Memory: a read after a write, and every memory operation keeps the canonical form. -/

namespace Sys2Proof.Machine

@[simp] theorem readCell_nil (a : Nat) : readCell [] a = none := rfl

@[simp] theorem readCell_writeCell_same (m : Memory) (a : Nat) (v : Byte) : readCell (writeCell m a v) a = some v := by
  induction m with
  | nil => simp [writeCell, readCell]
  | cons c rest ih =>
    obtain ⟨b, w⟩ := c
    simp only [writeCell]
    split
    · simp [readCell]
    · split
      · simp [readCell]
      · rename_i h; simp [readCell, h, ih]

@[simp] theorem readCell_writeCell_other (m : Memory) {a c : Nat} (v : Byte) (h : c ≠ a) :
    readCell (writeCell m a v) c = readCell m c := by
  induction m with
  | nil => simp [writeCell, readCell, h]
  | cons x rest ih =>
    obtain ⟨b, w⟩ := x
    simp only [writeCell]
    split
    · simp [readCell, h]
    · split
      · rename_i e; subst e; simp [readCell, h]
      · simp only [readCell, ih]

theorem readCell_writeCell (m : Memory) (a c : Nat) (v : Byte) :
    readCell (writeCell m a v) c = if c = a then some v else readCell m c := by
  split
  · rename_i h; subst h; simp
  · rename_i h; simp [h]

theorem readCell_fillCells (n c : Nat) (v : Byte) (m : Memory) :
    readCell (fillCells n v m) c = if c < n then some v else readCell m c := by
  induction n with
  | zero => simp [fillCells]
  | succ n ih =>
    simp only [fillCells, readCell_writeCell, ih]
    split
    · simp_all
    · split <;> split <;> first | rfl | omega

/-- The canonical form from a lower bound is one from any lower bound below it. -/
theorem cellsFrom_mono {low low' : Nat} {m : Memory} (h : cellsFrom low' m = true) (hl : low ≤ low') : cellsFrom low m = true := by
  cases m with
  | nil => rfl
  | cons c rest =>
    simp only [cellsFrom, Bool.and_eq_true, decide_eq_true_eq] at h ⊢
    exact ⟨by omega, h.2⟩

theorem cellsFrom_writeCell {low a : Nat} {m : Memory} (v : Byte) (h : cellsFrom low m = true) (hl : low ≤ a) :
    cellsFrom low (writeCell m a v) = true := by
  induction m generalizing low with
  | nil => simp [writeCell, cellsFrom, hl]
  | cons c rest ih =>
    obtain ⟨b, w⟩ := c
    simp only [cellsFrom, Bool.and_eq_true, decide_eq_true_eq] at h
    simp only [writeCell]
    split
    · rename_i hab
      simp only [cellsFrom, Bool.and_eq_true, decide_eq_true_eq]
      exact ⟨hl, by omega, h.2⟩
    · split
      · rename_i e; subst e
        simp only [cellsFrom, Bool.and_eq_true, decide_eq_true_eq]
        exact ⟨hl, h.2⟩
      · simp only [cellsFrom, Bool.and_eq_true, decide_eq_true_eq]
        exact ⟨h.1, ih h.2 (by omega)⟩

/-- A write keeps the canonical form. -/
theorem writeCell_wf {m : Memory} (a : Nat) (v : Byte) (h : Memory.wf m = true) : Memory.wf (writeCell m a v) = true :=
  cellsFrom_writeCell v h (Nat.zero_le a)

/-- Filling keeps the canonical form. -/
theorem fillCells_wf {m : Memory} (n : Nat) (v : Byte) (h : Memory.wf m = true) : Memory.wf (fillCells n v m) = true := by
  induction n with
  | zero => exact h
  | succ n ih => exact writeCell_wf n v ih

/-- A write inside the range keeps every listed address inside the range. -/
theorem writeCell_below {n a : Nat} {m : Memory} (v : Byte) (h : cellsBelow n m = true) (ha : a < n) :
    cellsBelow n (writeCell m a v) = true := by
  induction m with
  | nil => simp [writeCell, cellsBelow, ha]
  | cons c rest ih =>
    obtain ⟨b, w⟩ := c
    simp only [cellsBelow, List.all_cons, Bool.and_eq_true, decide_eq_true_eq] at h ih
    simp only [writeCell]
    split
    · simp [cellsBelow, ha, h]
    · split
      · simp only [cellsBelow, List.all_cons, Bool.and_eq_true, decide_eq_true_eq]; exact ⟨ha, h.2⟩
      · simp only [cellsBelow, List.all_cons, Bool.and_eq_true, decide_eq_true_eq]; exact ⟨h.1, ih h.2⟩

theorem fillCells_below {n k : Nat} {m : Memory} (v : Byte) (h : cellsBelow n m = true) (hk : k ≤ n) :
    cellsBelow n (fillCells k v m) = true := by
  induction k with
  | zero => exact h
  | succ k ih => exact writeCell_below v (ih (by omega)) (by omega)

/-- Writing twice at an address is writing once. -/
theorem writeCell_twice (m : Memory) (a : Nat) (v w : Byte) : writeCell (writeCell m a v) a w = writeCell m a w := by
  induction m with
  | nil => simp [writeCell]
  | cons c rest ih =>
    obtain ⟨b, x⟩ := c
    by_cases h1 : a < b
    · simp [writeCell, h1]
    · by_cases h2 : a = b
      · simp [writeCell, h2]
      · simp [writeCell, h1, h2, ih]

theorem readCell_eq_none_of_cellsFrom {m : Memory} {a low : Nat} (h : cellsFrom low m = true) (ha : a < low) : readCell m a = none := by
  induction m generalizing low with
  | nil => rfl
  | cons c rest ih =>
    obtain ⟨b, x⟩ := c
    simp only [cellsFrom, Bool.and_eq_true, decide_eq_true_eq] at h
    simp only [readCell]
    rw [if_neg (by omega)]
    exact ih h.2 (by omega)

/-- Writing the byte that is there changes nothing. -/
theorem writeCell_same {m : Memory} {a low : Nat} {v : Byte} (h : cellsFrom low m = true) (hr : readCell m a = some v) :
    writeCell m a v = m := by
  induction m generalizing low with
  | nil => simp at hr
  | cons c rest ih =>
    obtain ⟨b, x⟩ := c
    simp only [cellsFrom, Bool.and_eq_true, decide_eq_true_eq] at h
    simp only [readCell] at hr
    simp only [writeCell]
    by_cases h2 : a = b
    · subst h2; simp_all
    · rw [if_neg h2] at hr
      have hlt : ¬ a < b := fun hab => by
        rw [readCell_eq_none_of_cellsFrom h.2 (by omega)] at hr; simp at hr
      rw [if_neg hlt, if_neg h2, ih h.2 hr]

theorem fillCells_same {m : Memory} {n : Nat} {v : Byte} (h : Memory.wf m = true) (hr : ∀ c, c < n → readCell m c = some v) :
    fillCells n v m = m := by
  induction n with
  | zero => rfl
  | succ n ih => rw [fillCells, ih fun c hc => hr c (by omega)]; exact writeCell_same h (hr n (by omega))

/-- Canonical memories that read the same are the same list. -/
theorem memory_ext {m m' : Memory} {low : Nat} (h : cellsFrom low m = true) (h' : cellsFrom low m' = true)
    (e : ∀ a, readCell m a = readCell m' a) : m = m' := by
  induction m generalizing m' low with
  | nil =>
    cases m' with
    | nil => rfl
    | cons c rest => have := e c.1; simp [readCell] at this
  | cons c rest ih =>
    obtain ⟨b, x⟩ := c
    simp only [cellsFrom, Bool.and_eq_true, decide_eq_true_eq] at h
    cases m' with
    | nil => have := e b; simp [readCell] at this
    | cons c' rest' =>
      obtain ⟨b', x'⟩ := c'
      simp only [cellsFrom, Bool.and_eq_true, decide_eq_true_eq] at h'
      have hb : b = b' := by
        by_contra hne
        rcases Nat.lt_or_gt_of_ne hne with hlt | hlt
        · have := e b
          rw [readCell, if_pos rfl, readCell, if_neg hne, readCell_eq_none_of_cellsFrom h'.2 (by omega)] at this
          simp at this
        · have := e b'
          rw [readCell, if_neg (Ne.symm hne), readCell_eq_none_of_cellsFrom h.2 (by omega), readCell, if_pos rfl] at this
          simp at this
      subst hb
      have hx : x = x' := by have := e b; simpa [readCell] using this
      subst hx
      congr 1
      refine ih h.2 h'.2 fun a => ?_
      by_cases ha : a = b
      · subst ha
        rw [readCell_eq_none_of_cellsFrom h.2 (by omega), readCell_eq_none_of_cellsFrom h'.2 (by omega)]
      · have := e a; simpa [readCell, ha] using this

/-- Writes at different addresses of a canonical memory commute. -/
theorem writeCell_comm {m : Memory} (h : Memory.wf m = true) {a b : Nat} (hab : a ≠ b) (v w : Byte) :
    writeCell (writeCell m a v) b w = writeCell (writeCell m b w) a v := by
  refine memory_ext (writeCell_wf b w (writeCell_wf a v h)) (writeCell_wf a v (writeCell_wf b w h)) fun c => ?_
  simp only [readCell_writeCell]
  split <;> split <;> simp_all

end Sys2Proof.Machine
end

