-- ==== Sys2Proof/Laws/State.lean ====
section
/-! SUPPORT. One lemma per field per named update of the state: what each update leaves and what it writes. -/

namespace Sys2Proof.Machine

variable (s : State)

@[simp] theorem writeColumn_numDevices (c : Nat) (v : Byte) : (writeColumn c v s).numDevices = s.numDevices := rfl
@[simp] theorem writeColumn_selectLine (c : Nat) (v : Byte) : (writeColumn c v s).selectLine = s.selectLine := rfl
@[simp] theorem writeColumn_font (c : Nat) (v : Byte) : (writeColumn c v s).font = s.font := rfl
@[simp] theorem writeColumn_fb (c : Nat) (v : Byte) : (writeColumn c v s).fb = writeCell s.fb c v := rfl
@[simp] theorem writeColumn_currentText (c : Nat) (v : Byte) : (writeColumn c v s).currentText = s.currentText := rfl
@[simp] theorem writeColumn_pendingNextText (c : Nat) (v : Byte) : (writeColumn c v s).pendingNextText = s.pendingNextText := rfl
@[simp] theorem writeColumn_charWidth (c : Nat) (v : Byte) : (writeColumn c v s).charWidth = s.charWidth := rfl
@[simp] theorem writeColumn_scrollCursor (c : Nat) (v : Byte) : (writeColumn c v s).scrollCursor = s.scrollCursor := rfl
@[simp] theorem writeColumn_alignmentMode (c : Nat) (v : Byte) : (writeColumn c v s).alignmentMode = s.alignmentMode := rfl
@[simp] theorem writeColumn_alignmentOffset (c : Nat) (v : Byte) : (writeColumn c v s).alignmentOffset = s.alignmentOffset := rfl
@[simp] theorem writeColumn_rotationEnabled (c : Nat) (v : Byte) : (writeColumn c v s).rotationEnabled = s.rotationEnabled := rfl
@[simp] theorem writeColumn_oscillationDirection (c : Nat) (v : Byte) : (writeColumn c v s).oscillationDirection = s.oscillationDirection := rfl
@[simp] theorem writeColumn_busOpen (c : Nat) (v : Byte) : (writeColumn c v s).busOpen = s.busOpen := rfl
@[simp] theorem writeColumn_select (c : Nat) (v : Byte) : (writeColumn c v s).select = s.select := rfl
@[simp] theorem writeColumn_tx (c : Nat) (v : Byte) : (writeColumn c v s).tx = s.tx := rfl
@[simp] theorem writeColumn_chain (c : Nat) (v : Byte) : (writeColumn c v s).chain = s.chain := rfl
@[simp] theorem writeColumn_inbox (c : Nat) (v : Byte) : (writeColumn c v s).inbox = s.inbox := rfl
@[simp] theorem writeColumn_actingDevice (c : Nat) (v : Byte) : (writeColumn c v s).actingDevice = s.actingDevice := rfl
@[simp] theorem writeColumn_draws (c : Nat) (v : Byte) : (writeColumn c v s).draws = s.draws := rfl

@[simp] theorem takeInput_numDevices (rest : List Input) : (takeInput rest s).numDevices = s.numDevices := rfl
@[simp] theorem takeInput_selectLine (rest : List Input) : (takeInput rest s).selectLine = s.selectLine := rfl
@[simp] theorem takeInput_font (rest : List Input) : (takeInput rest s).font = s.font := rfl
@[simp] theorem takeInput_fb (rest : List Input) : (takeInput rest s).fb = s.fb := rfl
@[simp] theorem takeInput_currentText (rest : List Input) : (takeInput rest s).currentText = s.currentText := rfl
@[simp] theorem takeInput_pendingNextText (rest : List Input) : (takeInput rest s).pendingNextText = s.pendingNextText := rfl
@[simp] theorem takeInput_charWidth (rest : List Input) : (takeInput rest s).charWidth = s.charWidth := rfl
@[simp] theorem takeInput_scrollCursor (rest : List Input) : (takeInput rest s).scrollCursor = s.scrollCursor := rfl
@[simp] theorem takeInput_alignmentMode (rest : List Input) : (takeInput rest s).alignmentMode = s.alignmentMode := rfl
@[simp] theorem takeInput_alignmentOffset (rest : List Input) : (takeInput rest s).alignmentOffset = s.alignmentOffset := rfl
@[simp] theorem takeInput_rotationEnabled (rest : List Input) : (takeInput rest s).rotationEnabled = s.rotationEnabled := rfl
@[simp] theorem takeInput_oscillationDirection (rest : List Input) : (takeInput rest s).oscillationDirection = s.oscillationDirection := rfl
@[simp] theorem takeInput_busOpen (rest : List Input) : (takeInput rest s).busOpen = s.busOpen := rfl
@[simp] theorem takeInput_select (rest : List Input) : (takeInput rest s).select = s.select := rfl
@[simp] theorem takeInput_tx (rest : List Input) : (takeInput rest s).tx = s.tx := rfl
@[simp] theorem takeInput_chain (rest : List Input) : (takeInput rest s).chain = s.chain := rfl
@[simp] theorem takeInput_inbox (rest : List Input) : (takeInput rest s).inbox = rest := rfl
@[simp] theorem takeInput_actingDevice (rest : List Input) : (takeInput rest s).actingDevice = s.actingDevice := rfl
@[simp] theorem takeInput_draws (rest : List Input) : (takeInput rest s).draws = s.draws + 1 := rfl

@[simp] theorem recomputeOffset_numDevices : (recomputeOffset s).numDevices = s.numDevices := rfl
@[simp] theorem recomputeOffset_selectLine : (recomputeOffset s).selectLine = s.selectLine := rfl
@[simp] theorem recomputeOffset_font : (recomputeOffset s).font = s.font := rfl
@[simp] theorem recomputeOffset_fb : (recomputeOffset s).fb = s.fb := rfl
@[simp] theorem recomputeOffset_currentText : (recomputeOffset s).currentText = s.currentText := rfl
@[simp] theorem recomputeOffset_pendingNextText : (recomputeOffset s).pendingNextText = s.pendingNextText := rfl
@[simp] theorem recomputeOffset_charWidth : (recomputeOffset s).charWidth = s.charWidth := rfl
@[simp] theorem recomputeOffset_scrollCursor : (recomputeOffset s).scrollCursor = s.scrollCursor := rfl
@[simp] theorem recomputeOffset_alignmentMode : (recomputeOffset s).alignmentMode = s.alignmentMode := rfl
@[simp] theorem recomputeOffset_alignmentOffset : (recomputeOffset s).alignmentOffset = alignmentOffsetOf s.alignmentMode (currentColumns s) (displayColumns s) := rfl
@[simp] theorem recomputeOffset_rotationEnabled : (recomputeOffset s).rotationEnabled = s.rotationEnabled := rfl
@[simp] theorem recomputeOffset_oscillationDirection : (recomputeOffset s).oscillationDirection = s.oscillationDirection := rfl
@[simp] theorem recomputeOffset_busOpen : (recomputeOffset s).busOpen = s.busOpen := rfl
@[simp] theorem recomputeOffset_select : (recomputeOffset s).select = s.select := rfl
@[simp] theorem recomputeOffset_tx : (recomputeOffset s).tx = s.tx := rfl
@[simp] theorem recomputeOffset_chain : (recomputeOffset s).chain = s.chain := rfl
@[simp] theorem recomputeOffset_inbox : (recomputeOffset s).inbox = s.inbox := rfl
@[simp] theorem recomputeOffset_actingDevice : (recomputeOffset s).actingDevice = s.actingDevice := rfl
@[simp] theorem recomputeOffset_draws : (recomputeOffset s).draws = s.draws := rfl

@[simp] theorem emit_selAssert_numDevices : (emit .selAssert s).numDevices = s.numDevices := rfl
@[simp] theorem emit_selAssert_selectLine : (emit .selAssert s).selectLine = s.selectLine := rfl
@[simp] theorem emit_selAssert_font : (emit .selAssert s).font = s.font := rfl
@[simp] theorem emit_selAssert_fb : (emit .selAssert s).fb = s.fb := rfl
@[simp] theorem emit_selAssert_currentText : (emit .selAssert s).currentText = s.currentText := rfl
@[simp] theorem emit_selAssert_pendingNextText : (emit .selAssert s).pendingNextText = s.pendingNextText := rfl
@[simp] theorem emit_selAssert_charWidth : (emit .selAssert s).charWidth = s.charWidth := rfl
@[simp] theorem emit_selAssert_scrollCursor : (emit .selAssert s).scrollCursor = s.scrollCursor := rfl
@[simp] theorem emit_selAssert_alignmentMode : (emit .selAssert s).alignmentMode = s.alignmentMode := rfl
@[simp] theorem emit_selAssert_alignmentOffset : (emit .selAssert s).alignmentOffset = s.alignmentOffset := rfl
@[simp] theorem emit_selAssert_rotationEnabled : (emit .selAssert s).rotationEnabled = s.rotationEnabled := rfl
@[simp] theorem emit_selAssert_oscillationDirection : (emit .selAssert s).oscillationDirection = s.oscillationDirection := rfl
@[simp] theorem emit_selAssert_busOpen : (emit .selAssert s).busOpen = s.busOpen := rfl
@[simp] theorem emit_selAssert_select : (emit .selAssert s).select = .low := rfl
@[simp] theorem emit_selAssert_tx : (emit .selAssert s).tx = s.tx ++ [.selAssert] := rfl
@[simp] theorem emit_selAssert_chain : (emit .selAssert s).chain = s.chain := rfl
@[simp] theorem emit_selAssert_inbox : (emit .selAssert s).inbox = s.inbox := rfl
@[simp] theorem emit_selAssert_actingDevice : (emit .selAssert s).actingDevice = s.actingDevice := rfl
@[simp] theorem emit_selAssert_draws : (emit .selAssert s).draws = s.draws := rfl

@[simp] theorem emit_word_numDevices (v : SerialWord) : (emit (.word v) s).numDevices = s.numDevices := rfl
@[simp] theorem emit_word_selectLine (v : SerialWord) : (emit (.word v) s).selectLine = s.selectLine := rfl
@[simp] theorem emit_word_font (v : SerialWord) : (emit (.word v) s).font = s.font := rfl
@[simp] theorem emit_word_fb (v : SerialWord) : (emit (.word v) s).fb = s.fb := rfl
@[simp] theorem emit_word_currentText (v : SerialWord) : (emit (.word v) s).currentText = s.currentText := rfl
@[simp] theorem emit_word_pendingNextText (v : SerialWord) : (emit (.word v) s).pendingNextText = s.pendingNextText := rfl
@[simp] theorem emit_word_charWidth (v : SerialWord) : (emit (.word v) s).charWidth = s.charWidth := rfl
@[simp] theorem emit_word_scrollCursor (v : SerialWord) : (emit (.word v) s).scrollCursor = s.scrollCursor := rfl
@[simp] theorem emit_word_alignmentMode (v : SerialWord) : (emit (.word v) s).alignmentMode = s.alignmentMode := rfl
@[simp] theorem emit_word_alignmentOffset (v : SerialWord) : (emit (.word v) s).alignmentOffset = s.alignmentOffset := rfl
@[simp] theorem emit_word_rotationEnabled (v : SerialWord) : (emit (.word v) s).rotationEnabled = s.rotationEnabled := rfl
@[simp] theorem emit_word_oscillationDirection (v : SerialWord) : (emit (.word v) s).oscillationDirection = s.oscillationDirection := rfl
@[simp] theorem emit_word_busOpen (v : SerialWord) : (emit (.word v) s).busOpen = s.busOpen := rfl
@[simp] theorem emit_word_select (v : SerialWord) : (emit (.word v) s).select = s.select := rfl
@[simp] theorem emit_word_tx (v : SerialWord) : (emit (.word v) s).tx = s.tx ++ [.word v] := rfl
@[simp] theorem emit_word_chain (v : SerialWord) : (emit (.word v) s).chain = shiftIn v s.chain := rfl
@[simp] theorem emit_word_inbox (v : SerialWord) : (emit (.word v) s).inbox = s.inbox := rfl
@[simp] theorem emit_word_actingDevice (v : SerialWord) : (emit (.word v) s).actingDevice = s.actingDevice := rfl
@[simp] theorem emit_word_draws (v : SerialWord) : (emit (.word v) s).draws = s.draws := rfl

@[simp] theorem emit_selDeassert_numDevices : (emit .selDeassert s).numDevices = s.numDevices := rfl
@[simp] theorem emit_selDeassert_selectLine : (emit .selDeassert s).selectLine = s.selectLine := rfl
@[simp] theorem emit_selDeassert_font : (emit .selDeassert s).font = s.font := rfl
@[simp] theorem emit_selDeassert_fb : (emit .selDeassert s).fb = s.fb := rfl
@[simp] theorem emit_selDeassert_currentText : (emit .selDeassert s).currentText = s.currentText := rfl
@[simp] theorem emit_selDeassert_pendingNextText : (emit .selDeassert s).pendingNextText = s.pendingNextText := rfl
@[simp] theorem emit_selDeassert_charWidth : (emit .selDeassert s).charWidth = s.charWidth := rfl
@[simp] theorem emit_selDeassert_scrollCursor : (emit .selDeassert s).scrollCursor = s.scrollCursor := rfl
@[simp] theorem emit_selDeassert_alignmentMode : (emit .selDeassert s).alignmentMode = s.alignmentMode := rfl
@[simp] theorem emit_selDeassert_alignmentOffset : (emit .selDeassert s).alignmentOffset = s.alignmentOffset := rfl
@[simp] theorem emit_selDeassert_rotationEnabled : (emit .selDeassert s).rotationEnabled = s.rotationEnabled := rfl
@[simp] theorem emit_selDeassert_oscillationDirection : (emit .selDeassert s).oscillationDirection = s.oscillationDirection := rfl
@[simp] theorem emit_selDeassert_busOpen : (emit .selDeassert s).busOpen = s.busOpen := rfl
@[simp] theorem emit_selDeassert_select : (emit .selDeassert s).select = .high := rfl
@[simp] theorem emit_selDeassert_tx : (emit .selDeassert s).tx = s.tx ++ [.selDeassert] := rfl
@[simp] theorem emit_selDeassert_chain : (emit .selDeassert s).chain = latchFrom s.draws s.tx.length 0 s.chain := rfl
@[simp] theorem emit_selDeassert_inbox : (emit .selDeassert s).inbox = s.inbox := rfl
@[simp] theorem emit_selDeassert_actingDevice : (emit .selDeassert s).actingDevice = s.actingDevice := rfl
@[simp] theorem emit_selDeassert_draws : (emit .selDeassert s).draws = s.draws := rfl

@[simp] theorem writeColumn_displayColumns (c : Nat) (v : Byte) : displayColumns (writeColumn c v s) = displayColumns s := rfl

/-- The product L × W in the spec's order. -/
theorem textColumns_eq (text : List Byte) (width : Byte) : textColumns text width = (text.length : Int) * (width.toNat : Int) :=
  Int.mul_comm _ _

theorem currentColumns_eq : currentColumns s = (s.currentText.length : Int) * (s.charWidth.toNat : Int) := textColumns_eq _ _

end Sys2Proof.Machine
end

