-- ==== Sys2Proof/Laws/Serial.lean ====
section
/-! SUPPORT. What the serial primitives do: words and chips, the shift register, frames, and the commands built from them. -/

namespace Sys2Proof.Machine

/-! ### Serial words -/

@[simp] theorem regField_serialWord (reg data : Byte) : regField (serialWord reg data) = reg := by
  unfold regField serialWord
  ext i hi
  simp only [BitVec.getElem_extractLsb', BitVec.getLsbD_append]
  have h : ¬ 8 + i < 8 := by omega
  simp [h, BitVec.getLsbD_eq_getElem hi]

@[simp] theorem dataField_serialWord (reg data : Byte) : dataField (serialWord reg data) = data := by
  unfold dataField serialWord
  ext i hi
  simp only [BitVec.getElem_extractLsb', BitVec.getLsbD_append]
  simp [hi]

theorem serialWord_fields (w : SerialWord) : serialWord (regField w) (dataField w) = w := by
  unfold serialWord regField dataField
  ext i hi
  simp only [BitVec.getElem_append, BitVec.getElem_extractLsb']
  split
  · simp [BitVec.getLsbD_eq_getElem hi]
  · have h : 8 + (i - 8) = i := by omega
    simp [h, BitVec.getLsbD_eq_getElem hi]

@[simp] theorem serialWord_zero : serialWord 0 0 = 0 := rfl

theorem serialWord_toNat (reg data : Byte) : (serialWord reg data).toNat = reg.toNat * 256 + data.toNat := by
  have h : reg.toNat < 256 := reg.isLt
  have h' : data.toNat < 256 := data.isLt
  simp only [serialWord, BitVec.toNat_append, Nat.shiftLeft_eq]
  rw [show reg.toNat * 2 ^ 8 = 2 ^ 8 * reg.toNat by ring, ← Nat.two_pow_add_eq_or_of_lt (by omega)]
  ring

/-! ### The shift register -/

@[simp] theorem shiftIn_length (v : SerialWord) (ch : List Chip) : (shiftIn v ch).length = ch.length := by
  induction ch generalizing v with
  | nil => rfl
  | cons c rest ih => simp [shiftIn, ih]

/-- After one shift, device k holds the k-th of the new word followed by the old stages. -/
theorem shiftIn_getElem? (v : SerialWord) (ch : List Chip) (k : Nat) :
    (shiftIn v ch)[k]? = ch[k]?.map fun c => { c with stage := ((v :: ch.map Chip.stage)[k]?).getD 0 } := by
  induction ch generalizing v k with
  | nil => simp [shiftIn]
  | cons c rest ih =>
    cases k with
    | zero => simp [shiftIn]
    | succ k =>
      simp only [shiftIn, List.getElem?_cons_succ, ih]
      cases h : rest[k]? with
      | none => rfl
      | some c' =>
        cases k with
        | zero => simp
        | succ k => simp

/-- The words that enter one after another. -/
def shiftWords (ws : List SerialWord) (ch : List Chip) : List Chip := ws.foldl (fun ch v => shiftIn v ch) ch

@[simp] theorem shiftWords_length (ws : List SerialWord) (ch : List Chip) : (shiftWords ws ch).length = ch.length := by
  induction ws generalizing ch with
  | nil => rfl
  | cons v rest ih => simp only [shiftWords, List.foldl_cons] at ih ⊢; rw [ih]; simp

theorem shiftIn_stages (v : SerialWord) (ch : List Chip) :
    (shiftIn v ch).map Chip.stage = (v :: ch.map Chip.stage).take ch.length := by
  induction ch generalizing v with
  | nil => simp [shiftIn]
  | cons c rest ih => simp [shiftIn, ih]

/-- After several shifts, device k holds the k-th of the words, last first, followed by the old stages. -/
theorem shiftWords_getElem? (ws : List SerialWord) (ch : List Chip) (k : Nat) :
    (shiftWords ws ch)[k]? = ch[k]?.map fun c => { c with stage := ((ws.reverse ++ ch.map Chip.stage)[k]?).getD 0 } := by
  induction ws generalizing ch with
  | nil =>
    simp only [shiftWords, List.foldl_nil, List.reverse_nil, List.nil_append, List.getElem?_map]
    cases h : ch[k]? with
    | none => rfl
    | some c => simp
  | cons v rest ih =>
    have hstep : shiftWords (v :: rest) ch = shiftWords rest (shiftIn v ch) := rfl
    rw [hstep, ih, shiftIn_getElem?]
    cases h : ch[k]? with
    | none => rfl
    | some c =>
      have hk : k < ch.length := by
        by_contra hn; rw [List.getElem?_eq_none (by omega)] at h; simp at h
      simp only [Option.map_some, List.reverse_cons, List.append_assoc, shiftIn_stages]
      congr 2
      rw [show rest.reverse ++ ([v] ++ ch.map Chip.stage) = rest.reverse ++ (v :: ch.map Chip.stage) from rfl]
      simp only [List.getElem?_append, List.getElem?_take]
      split
      · rfl
      · rw [if_pos (by omega)]

@[simp] theorem latchFrom_length (draw event d : Nat) (ch : List Chip) : (latchFrom draw event d ch).length = ch.length := by
  induction ch generalizing d with
  | nil => rfl
  | cons c rest ih => simp [latchFrom, ih]

theorem latchFrom_getElem? (draw event d : Nat) (ch : List Chip) (k : Nat) :
    (latchFrom draw event d ch)[k]? = ch[k]?.map (latchChip (unknownChip draw event (d + k))) := by
  induction ch generalizing d k with
  | nil => simp [latchFrom]
  | cons c rest ih =>
    cases k with
    | zero => simp [latchFrom]
    | succ k => simp only [latchFrom, List.getElem?_cons_succ, ih]; congr 3; omega

/-! ### Frames -/

theorem emitWords_eq (ws : List SerialWord) (s : State) :
    emitWords ws s = { s with tx := s.tx ++ ws.map .word, chain := shiftWords ws s.chain } := by
  induction ws generalizing s with
  | nil => simp [emitWords, shiftWords]
  | cons v rest ih => rw [emitWords, ih]; simp [emit, shiftWords]

/-- The chain after a frame of the words `w` that began at the given number of events. -/
def frameChain (draw events : Nat) (w : List SerialWord) (ch : List Chip) : List Chip :=
  latchFrom draw (events + w.length + 1) 0 (shiftWords w.reverse ch)

/-- Everything a frame does (41_serial_transmit.md R120). -/
theorem txFrame_eq (w : List SerialWord) (s : State) :
    txFrame w s = { s with
      tx := s.tx ++ frameEvents w, select := .high, chain := frameChain s.draws s.tx.length w s.chain } := by
  simp [txFrame, emitWords_eq, emit, frameEvents, frameChain]
  congr 1

@[simp] theorem frameChain_length (draw events : Nat) (w : List SerialWord) (ch : List Chip) :
    (frameChain draw events w ch).length = ch.length := by simp [frameChain]

@[simp] theorem frameEvents_length (w : List SerialWord) : (frameEvents w).length = w.length + 2 := by simp [frameEvents]

/-- What any frame does to the chip at place k of a chain of any length: it acts on the k-th of the words followed by the stages the
chips held before (20_memory.md R69, 70_reset_and_hazards.md R196). -/
theorem frameChain_any (draw events : Nat) (w : List SerialWord) (ch : List Chip) (k : Nat) :
    (frameChain draw events w ch)[k]? = ch[k]?.map fun c =>
      latchChip (unknownChip draw (events + w.length + 1) k) { c with stage := ((w ++ ch.map Chip.stage)[k]?).getD 0 } := by
  simp only [frameChain, latchFrom_getElem?, shiftWords_getElem?, List.reverse_reverse, Nat.zero_add, Option.map_map]
  rfl

/-- A device with a slot in the frame receives the word of its slot, however many chips are chained (20_memory.md R66, R69). -/
theorem frameChain_getElem? {draw events : Nat} {w : List SerialWord} {ch : List Chip} {k : Nat} {c : Chip} {v : SerialWord}
    (hc : ch[k]? = some c) (hv : w[k]? = some v) :
    (frameChain draw events w ch)[k]? =
      some (latchChip (unknownChip draw (events + w.length + 1) k) { c with stage := v }) := by
  have hk : k < w.length := by
    by_contra hn; rw [List.getElem?_eq_none (by omega)] at hv; simp at hv
  rw [frameChain_any, hc, List.getElem?_append_left hk, hv]
  rfl

/-! ### The trace -/

theorem framesOk_append {n : Nat} {o : Option Nat} {a b : List SerialEvent} (ha : framesOk n o a = true)
    (hb : framesOk n none b = true) : framesOk n o (a ++ b) = true := by
  induction a generalizing o with
  | nil => cases o with
    | none => exact hb
    | some k => simp [framesOk] at ha
  | cons e rest ih =>
    cases o with
    | none => cases e <;> simp_all [framesOk]
    | some k => cases e <;> simp_all [framesOk]

theorem framesOk_words (n k : Nat) (ws : List SerialWord) (rest : List SerialEvent) :
    framesOk n (some k) (ws.map .word ++ rest) = framesOk n (some (k + ws.length)) rest := by
  induction ws generalizing k with
  | nil => rfl
  | cons v ws ih => simp only [List.map_cons, List.cons_append, framesOk, ih, List.length_cons]; congr 2; omega

/-- A frame of N words, and a frame of none, keep the shape of the trace. -/
theorem framesOk_frameEvents {n : Nat} {w : List SerialWord} (h : w.length = n ∨ w.length = 0) :
    framesOk n none (frameEvents w) = true := by
  simp only [frameEvents, framesOk, framesOk_words, List.length_reverse, Nat.zero_add, Bool.and_eq_true, Bool.or_eq_true,
    beq_iff_eq, and_true]
  exact h

/-! ### Several frames -/

/-- The frames of a list of word arrays, in order. -/
def sendFrames (fs : List (List SerialWord)) (s : State) : State := fs.foldl (fun t w => txFrame w t) s

@[simp] theorem sendFrames_nil (s : State) : sendFrames [] s = s := rfl

@[simp] theorem sendFrames_cons (w : List SerialWord) (fs : List (List SerialWord)) (s : State) :
    sendFrames (w :: fs) s = sendFrames fs (txFrame w s) := rfl

theorem sendFrames_append (fs gs : List (List SerialWord)) (s : State) :
    sendFrames (fs ++ gs) s = sendFrames gs (sendFrames fs s) := by simp [sendFrames]

/-- The chain after several frames. -/
def framesChain (draw : Nat) : Nat → List (List SerialWord) → List Chip → List Chip
  | _, [], ch => ch
  | events, w :: fs, ch => framesChain draw (events + w.length + 2) fs (frameChain draw events w ch)

/-- Everything several frames do. -/
theorem sendFrames_eq (fs : List (List SerialWord)) (s : State) :
    sendFrames fs s = { s with
      tx := s.tx ++ fs.flatMap frameEvents
      select := if fs = [] then s.select else .high
      chain := framesChain s.draws s.tx.length fs s.chain } := by
  induction fs generalizing s with
  | nil => simp [framesChain]
  | cons w fs ih =>
    rw [sendFrames_cons, ih, txFrame_eq]
    simp [framesChain, Nat.add_assoc]

@[simp] theorem framesChain_length (draw events : Nat) (fs : List (List SerialWord)) (ch : List Chip) :
    (framesChain draw events fs ch).length = ch.length := by
  induction fs generalizing events ch with
  | nil => rfl
  | cons w fs ih => simp [framesChain, ih]

theorem framesOk_flatMap {n : Nat} {fs : List (List SerialWord)} (h : ∀ w ∈ fs, w.length = n) :
    framesOk n none (fs.flatMap frameEvents) = true := by
  induction fs with
  | nil => rfl
  | cons w fs ih =>
    simp only [List.flatMap_cons]
    exact framesOk_append (framesOk_frameEvents (.inl (h w (by simp)))) (ih fun v hv => h v (by simp [hv]))

/-! ### The commands as frames -/

@[simp] theorem targetWords_length (n d : Nat) (w : SerialWord) : (targetWords n d w).length = n := by simp [targetWords]

theorem targetWords_getElem? {n d k : Nat} (w : SerialWord) (hk : k < n) :
    (targetWords n d w)[k]? = some (if k = d then w else 0) := by
  simp only [targetWords, List.getElem?_set, List.length_replicate, List.getElem?_replicate]
  split
  · rename_i h; subst h; simp [hk]
  · rename_i h; rw [if_neg (Ne.symm h)]

theorem targetWords_eq_map (n d : Nat) (w : SerialWord) :
    targetWords n d w = (List.range n).map fun k => if k = d then w else 0 := by
  apply List.ext_getElem?
  intro k
  by_cases hk : k < n
  · rw [targetWords_getElem? w hk]; simp [hk]
  · rw [List.getElem?_eq_none (by simp; omega), List.getElem?_eq_none (by simp; omega)]

@[simp] theorem sendFrames_numDevices (fs : List (List SerialWord)) (s : State) : (sendFrames fs s).numDevices = s.numDevices := by
  rw [sendFrames_eq]

theorem writeRegisterAt_eq (d : Nat) (reg v : Byte) (s : State) :
    writeRegisterAt d reg v s = sendFrames [targetWords s.numDevices d (serialWord reg v)] s := rfl

theorem foldl_writeRegisterAt (ds : List Nat) (reg v : Byte) (s : State) :
    ds.foldl (fun t d => writeRegisterAt d reg v t) s =
      sendFrames (ds.map fun d => targetWords s.numDevices d (serialWord reg v)) s := by
  induction ds generalizing s with
  | nil => rfl
  | cons d ds ih =>
    rw [List.foldl_cons, ih, writeRegisterAt_eq, sendFrames_numDevices]; rfl

/-- WRITE_REGISTER_ALL is one targeted frame per device, ascending (R122). -/
theorem writeRegisterEach_eq (reg v : Byte) (s : State) :
    writeRegisterEach reg v s =
      sendFrames ((List.range s.numDevices).map fun d => targetWords s.numDevices d (serialWord reg v)) s :=
  foldl_writeRegisterAt _ _ _ _

/-- The five setup frames of one device (R125). -/
def setupFrames (n d : Nat) : List (List SerialWord) := setupWrites.map fun rv => targetWords n d (serialWord rv.1 rv.2)

theorem setupDevice_eq (d : Nat) (s : State) : setupDevice d s = sendFrames (setupFrames s.numDevices d) s := by
  simp only [setupDevice, setupFrames]
  generalize setupWrites = l
  induction l generalizing s with
  | nil => rfl
  | cons rv l ih => rw [List.foldl_cons, ih, writeRegisterAt_eq, sendFrames_numDevices]; rfl

theorem foldl_setupDevice (ds : List Nat) (s : State) :
    ds.foldl (fun t d => setupDevice d t) s = sendFrames (ds.flatMap (setupFrames s.numDevices)) s := by
  induction ds generalizing s with
  | nil => rfl
  | cons d ds ih => rw [List.foldl_cons, ih, setupDevice_eq, sendFrames_numDevices, List.flatMap_cons, sendFrames_append]

@[simp] theorem muxWords_length (s : State) (r : Nat) : (muxWords s r).length = s.numDevices := by simp [muxWords]

theorem foldl_commitRow (rs : List Nat) (s : State) :
    rs.foldl (fun t r => commitRow r t) s = sendFrames (rs.map (muxWords s)) s := by
  have h : ∀ t : State, t.numDevices = s.numDevices → t.fb = s.fb → t.draws = s.draws →
      rs.foldl (fun t r => commitRow r t) t = sendFrames (rs.map (muxWords s)) t := by
    induction rs with
    | nil => intros; rfl
    | cons r rs ih =>
      intro t h1 h2 h3
      have hm : muxWords t r = muxWords s r := by simp [muxWords, readColumn, h1, h2, h3]
      simp only [List.foldl_cons, List.map_cons, sendFrames_cons]
      rw [ih (commitRow r t)]
      · simp only [commitRow, hm]
      all_goals simp [commitRow, txFrame_eq, h1, h2, h3]
  exact h s rfl rfl rfl

/-- Everything the select pulse does (R124, 20_memory.md R69). -/
theorem selectPulse_eq (s : State) :
    selectPulse s = { s with
      tx := s.tx ++ [.selAssert, .selDeassert], select := .high
      chain := (List.range s.chain.length).map fun d => unknownChip s.draws (s.tx.length + 1) d } := by
  simp [selectPulse]

/-- INITIALIZE as the pulse and its frames (R125). -/
theorem execInitializeChain_eq (s : State) :
    execInitializeChain s = .next (sendFrames ((List.range s.numDevices).flatMap (setupFrames s.numDevices))
      { selectPulse s with busOpen := true }) := by
  simp only [execInitializeChain, foldl_setupDevice]
  rfl

/-- COMMIT as its eight frames (R126). -/
theorem execCommit_eq {s : State} (h : s.busOpen = true) :
    execCommit s = .next (sendFrames ((List.range 8).map (muxWords s)) s) := by
  simp only [execCommit, h, foldl_commitRow]
  rfl

/-! ### Chips -/

/-- The no-op word leaves a chip as it is (20_memory.md R68). -/
@[simp] theorem latchChip_noop {any c : Chip} (h : regField c.stage = 0) : latchChip any c = c := by simp [latchChip, h]

/-- No word changes what a chip's stage holds. -/
@[simp] theorem latchChip_stage (any c : Chip) : (latchChip any c).stage = c.stage := by
  unfold latchChip
  dsimp only
  repeat' split
  all_goals rfl

/-! ### One device over several frames -/

/-- A chip over a list of words, each of which it holds when SELECT is deasserted; `any` numbers the deliveries. -/
def receiveAll (any : Nat → Chip) : Nat → List SerialWord → Chip → Chip
  | _, [], c => c
  | n, v :: vs, c => receiveAll any (n + 1) vs (latchChip (any n) { c with stage := v })

theorem receiveAll_append (any : Nat → Chip) (n : Nat) (us vs : List SerialWord) (c : Chip) :
    receiveAll any n (us ++ vs) c = receiveAll any (n + us.length) vs (receiveAll any n us c) := by
  induction us generalizing n c with
  | nil => rfl
  | cons u us ih => simp only [List.cons_append, receiveAll, ih, List.length_cons]; congr 1; omega

/-- No-op words change no register. -/
theorem receiveAll_noop (any : Nat → Chip) (n : Nat) {vs : List SerialWord} (h : ∀ v ∈ vs, v = 0) (c : Chip) :
    receiveAll any n vs c = { c with stage := (receiveAll any n vs c).stage } := by
  induction vs generalizing n c with
  | nil => rfl
  | cons v vs ih =>
    have hv : v = 0 := h v (by simp)
    subst hv
    have h0 : regField (0 : SerialWord) = 0 := by decide
    rw [receiveAll, latchChip_noop (c := { c with stage := 0 }) h0, ih _ fun u hu => h u (by simp [hu])]

/-- Over frames of n words, device k < n receives the words of its slot, in order (20_memory.md R66). -/
theorem framesChain_getElem? (draw : Nat) {n k : Nat} {fs : List (List SerialWord)} {ch : List Chip} {c : Chip} (events : Nat)
    (hk : k < n) (hw : ∀ w ∈ fs, w.length = n) (hc : ch[k]? = some c) :
    (framesChain draw events fs ch)[k]? =
      some (receiveAll (fun m => unknownChip draw (events + m * (n + 2) + n + 1) k) 0 (fs.map fun w => (w[k]?).getD 0) c) := by
  have key : ∀ (m : Nat) (fs : List (List SerialWord)) (ch : List Chip) (c : Chip), (∀ w ∈ fs, w.length = n) → ch[k]? = some c →
      (framesChain draw (events + m * (n + 2)) fs ch)[k]? =
        some (receiveAll (fun m => unknownChip draw (events + m * (n + 2) + n + 1) k) m (fs.map fun w => (w[k]?).getD 0) c) := by
    intro m fs
    induction fs generalizing m with
    | nil => intro ch c _ hc; exact hc
    | cons w fs ih =>
      intro ch c hw hc
      have hwl : w.length = n := hw w (by simp)
      have hv : w[k]? = some ((w[k]?).getD 0) := by
        rw [List.getElem?_eq_getElem (by omega)]; rfl
      have hf := frameChain_getElem? (draw := draw) (events := events + m * (n + 2)) hc hv
      rw [framesChain, show events + m * (n + 2) + w.length + 2 = events + (m + 1) * (n + 2) by rw [hwl]; ring,
        ih (m + 1) _ _ (fun u hu => hw u (by simp [hu])) hf]
      simp only [List.map_cons, receiveAll, hwl]
  simpa using key 0 fs ch c hw hc

/-- Row register `i + 1` of a chip. -/
theorem chipRegister_row (c : Chip) {a : Byte} (h : Config.regRowBase ≤ a ∧ a < Config.regRowBase + 8) :
    chipRegister c a = c.rows[a.toNat - 1]? := by
  unfold chipRegister; rw [if_pos h]; rfl

/-- A mapped word stores its data byte in its register and leaves every other register as it was (20_memory.md R68, U4). -/
theorem latchChip_stores (any c : Chip) {reg data : Byte} (hs : c.stage = serialWord reg data)
    (hm : (chipRegister c reg).isSome = true) (hi : reg = Config.regIntensity → data.toNat ≤ 15) :
    chipRegister (latchChip any c) reg = some data ∧ ∀ a, a ≠ reg → chipRegister (latchChip any c) a = chipRegister c a := by
  by_cases hrow : Config.regRowBase ≤ reg ∧ reg < Config.regRowBase + 8
  · have hl : latchChip any c = { c with rows := c.rows.setIfInBounds (reg.toNat - Config.regRowBase.toNat) data } := by
      have h0 : reg ≠ 0 := by intro h; subst h; exact absurd hrow.1 (by decide)
      simp only [latchChip, hs, regField_serialWord, dataField_serialWord, if_neg h0, if_pos hrow]
    have h1 : 1 ≤ reg.toNat := hrow.1
    have h8 : reg.toNat < 9 := hrow.2
    have hone : Config.regRowBase.toNat = 1 := rfl
    rw [hl]
    refine ⟨?_, fun a ha => ?_⟩
    · rw [chipRegister, if_pos hrow]
      rw [hone, Vector.getElem?_setIfInBounds, if_pos rfl, if_pos (by omega)]
    · unfold chipRegister
      split
      · rename_i hr
        have h1' : 1 ≤ a.toNat := hr.1
        have hne : a.toNat ≠ reg.toNat := fun h => ha (BitVec.eq_of_toNat_eq h)
        simp only [hone]
        rw [Vector.getElem?_setIfInBounds_ne (by omega)]
      · rfl
  · have hcases : reg = Config.regDecodeMode ∨ reg = Config.regIntensity ∨ reg = Config.regScanLimit ∨ reg = Config.regShutdown ∨
        reg = Config.regDisplayTest := by
      unfold chipRegister at hm
      rw [if_neg hrow] at hm
      by_contra hn
      simp only [not_or] at hn
      simp [hn] at hm
    rcases hcases with rfl | rfl | rfl | rfl | rfl
    all_goals
      refine ⟨?_, fun a ha => ?_⟩
      · first
          | (simp +decide [chipRegister, latchChip, hs]; done)
          | (simp +decide [chipRegister, latchChip, hs]; intro h; exact absurd (hi rfl) (by omega))
      · simp +decide [chipRegister, latchChip, hs, ha]

@[simp] theorem regField_zero : regField 0#16 = 0#8 := by decide

/-! ### One chip alone -/

theorem modify_eq_set {ch : List Chip} {d : Nat} {c : Chip} (hc : ch[d]? = some c) (f : Chip → Chip) :
    ch.modify d f = ch.set d (f c) := by
  apply List.ext_getElem?
  intro k
  have hl : d < ch.length := by
    by_contra hn; rw [List.getElem?_eq_none (by omega)] at hc; simp at hc
  rw [List.getElem?_modify, List.getElem?_set]
  by_cases h : d = k
  · subst h; rw [hc, if_pos rfl, if_pos hl]; simp
  · simp [h]

/-- Everything a word at a chip does (20_memory.md R68). -/
theorem chipReceive_eq {s : State} {c : Chip} (w : SerialWord) (hc : s.chain[s.actingDevice]? = some c) :
    chipReceive w s = .next { s with
      chain := s.chain.set s.actingDevice
        (latchChip (unknownChip s.draws s.tx.length s.actingDevice) { c with stage := w }) } := by
  have hl : s.actingDevice < s.chain.length := by
    by_contra hn; rw [List.getElem?_eq_none (by omega)] at hc; simp at hc
  rw [chipReceive, if_pos hl, modify_eq_set hc]

/-- A word at a chip changes that chip alone. -/
theorem chipReceive_next {w : SerialWord} {s t : State} (h : chipReceive w s = .next t) :
    ∃ ch, t = { s with chain := ch } ∧ ch.length = s.chain.length ∧ ∀ k, k ≠ s.actingDevice → ch[k]? = s.chain[k]? := by
  rw [chipReceive] at h
  split at h <;> cases h
  exact ⟨_, rfl, by simp, fun k hk => by simp [Ne.symm hk]⟩

/-- A loss of power changes one chip alone (70_reset_and_hazards.md R204). -/
theorem losePower_next {d : Nat} {s t : State} (h : losePower d s = .next t) :
    ∃ ch, t = { s with chain := ch } ∧ ch.length = s.chain.length ∧ ∀ k, k ≠ d → ch[k]? = s.chain[k]? := by
  rw [losePower] at h
  split at h <;> cases h
  exact ⟨_, rfl, by simp, fun k hk => by rw [List.getElem?_set, if_neg (Ne.symm hk)]⟩

end Sys2Proof.Machine
end

