-- ==== Sys2Proof/Laws/Decode.lean ====
section
/-! SUPPORT. The fields of an assembled header, and what the decoder answers. -/

namespace Sys2Proof

@[simp] theorem opField_header (op : Byte) (a : BitVec 16) (b c : Byte) : opField (header op a b c) = op := by
  unfold opField header
  ext i hi
  simp only [BitVec.getElem_extractLsb', BitVec.getLsbD_append]
  simp [show ¬ 32 + i < 8 by omega, show ¬ 32 + i - 8 < 8 by omega, show ¬ 32 + i - 8 - 8 < 16 by omega,
    show 32 + i - 8 - 8 - 16 = i by omega, BitVec.getLsbD_eq_getElem hi]

@[simp] theorem aField_header (op : Byte) (a : BitVec 16) (b c : Byte) : aField (header op a b c) = a.toInt := by
  unfold aField header
  congr 1
  ext i hi
  simp only [BitVec.getElem_extractLsb', BitVec.getLsbD_append]
  simp [show ¬ 16 + i < 8 by omega, show ¬ 16 + i - 8 < 8 by omega, show 16 + i - 8 - 8 = i by omega,
    hi]

@[simp] theorem bField_header (op : Byte) (a : BitVec 16) (b c : Byte) : bField (header op a b c) = b := by
  unfold bField header
  ext i hi
  simp only [BitVec.getElem_extractLsb', BitVec.getLsbD_append]
  simp [hi]

@[simp] theorem cField_header (op : Byte) (a : BitVec 16) (b c : Byte) : cField (header op a b c) = c := by
  unfold cField header
  ext i hi
  simp only [BitVec.getElem_extractLsb', BitVec.getLsbD_append]
  simp [hi]

/-- Low bits of field `b`, for the operands that use fewer than eight. -/
theorem lowB_header (op : Byte) (a : BitVec 16) (b c : Byte) {n : Nat} (hn : n ≤ 8) :
    (header op a b c).extractLsb' 8 n = b.setWidth n := by
  unfold header
  ext i hi
  simp only [BitVec.getElem_extractLsb', BitVec.getLsbD_append]
  simp [show i < 8 by omega]

@[simp] theorem rowField_header (op : Byte) (a : BitVec 16) (b c : Byte) :
    rowField (header op a b c) = Fin.ofNat 8 b.toNat := by
  unfold rowField
  rw [lowB_header op a b c (by omega)]
  ext
  simp

@[simp] theorem modeField_header (op : Byte) (a : BitVec 16) (b c : Byte) :
    modeField (header op a b c) = modeOfCode (b.toNat % 4) := by
  unfold modeField
  rw [lowB_header op a b c (by omega)]
  simp

@[simp] theorem enabledField_header (op : Byte) (a : BitVec 16) (b c : Byte) :
    enabledField (header op a b c) = b.getLsbD 0 := by
  unfold enabledField header
  rw [BitVec.getLsbD_append, BitVec.getLsbD_append]
  simp

theorem fitsOperandA_iff (v : Int) : fitsOperandA v = true ↔ -32768 ≤ v ∧ v ≤ 32767 := by simp [fitsOperandA]

theorem aField_range (h : Header) : fitsOperandA (aField h) = true := by
  have h1 := BitVec.toInt_lt (x := h.extractLsb' 16 16)
  have h2 := BitVec.le_toInt (x := h.extractLsb' 16 16)
  rw [fitsOperandA_iff, aField]
  omega

@[simp] theorem aOperand_toInt {v : Int} (h : fitsOperandA v = true) : (aOperand v).toInt = v := by
  rw [fitsOperandA_iff] at h
  simp only [aOperand, BitVec.toInt_ofInt]
  exact Int.bmod_eq_of_le (by omega) (by omega)

/-! ### What the decoder answers -/

/-- A rejection is no instruction, and an answered instruction is well-formed. -/
def AnswersWellFormed (d : Decoded) : Prop := ∀ i, d = .instr i → i.wellFormed = true

theorem answers_instr {j : Instr} (h : j.wellFormed = true) : AnswersWellFormed (.instr j) := by
  intro i e; injection e with e; rw [← e]; exact h

theorem answers_ite {c : Prop} [Decidable c] {a b : Decoded} (ha : AnswersWellFormed a) (hb : AnswersWellFormed b) :
    AnswersWellFormed (if c then a else b) := by
  split
  · exact ha
  · exact hb

theorem decodeSerial_answers (w : SerialWord) : AnswersWellFormed (decodeSerial w) := by
  unfold decodeSerial
  iterate 14 (refine answers_ite (answers_instr rfl) ?_)
  intro i e; cases e

theorem answers_withPayload {p : List Byte} {j : Instr} (h : fitsPayload p = true → j.wellFormed = true) :
    AnswersWellFormed (withPayload p j) := by
  unfold withPayload; split
  · rename_i hp; exact answers_instr (h hp)
  · intro i e; cases e

theorem decodeCommand_answers (hd : Header) (pl : List Byte) : AnswersWellFormed (decodeCommand hd pl) := by
  have ha := aField_range hd
  unfold decodeCommand
  split
  all_goals first
    | exact answers_instr rfl
    | exact answers_instr ha
    | exact answers_withPayload fun h => h
    | exact answers_withPayload fun h => by simp [Instr.wellFormed, ha, h]
    | (intro i e; cases e)

end Sys2Proof
end

