-- ==== Sys2Proof/Laws/Exec.lean ====
section
/-! SUPPORT. `exec` on each constructor, so that no proof unfolds the dispatch. -/

namespace Sys2Proof.Machine

variable (s : State)

@[simp] theorem exec_clear : exec .clear s = execClear s := rfl
@[simp] theorem exec_setPixel (col : Int) (row : Fin 8) : exec (.setPixel col row) s = execSetPixel col row s := rfl
@[simp] theorem exec_setColumn (col : Int) (value : Byte) : exec (.setColumn col value) s = execSetColumn col value s := rfl
@[simp] theorem exec_initializeChain : exec .initializeChain s = execInitializeChain s := rfl
@[simp] theorem exec_writeRegister (device : Int) (register : Byte) (value : Byte) : exec (.writeRegister device register value) s = execWriteRegister device register value s := rfl
@[simp] theorem exec_writeRegisterAll (register : Byte) (value : Byte) : exec (.writeRegisterAll register value) s = execWriteRegisterAll register value s := rfl
@[simp] theorem exec_setIntensity (level : Byte) : exec (.setIntensity level) s = execSetIntensity level s := rfl
@[simp] theorem exec_commit : exec .commit s = execCommit s := rfl
@[simp] theorem exec_setCharWidth (width : Byte) : exec (.setCharWidth width) s = execSetCharWidth width s := rfl
@[simp] theorem exec_setTextAlignment (mode : AlignmentMode) : exec (.setTextAlignment mode) s = execSetTextAlignment mode s := rfl
@[simp] theorem exec_setText (text : List Byte) : exec (.setText text) s = execSetText text s := rfl
@[simp] theorem exec_setNextText (text : List Byte) : exec (.setNextText text) s = execSetNextText text s := rfl
@[simp] theorem exec_setRotate (enabled : Bool) : exec (.setRotate enabled) s = execSetRotate enabled s := rfl
@[simp] theorem exec_scrollTextRight : exec .scrollTextRight s = execScrollTextRight s := rfl
@[simp] theorem exec_scrollTextLeft : exec .scrollTextLeft s = execScrollTextLeft s := rfl
@[simp] theorem exec_oscillateText : exec .oscillateText s = execOscillateText s := rfl
@[simp] theorem exec_drawText : exec .drawText s = execDrawText s := rfl
@[simp] theorem exec_setCustomChar (x : Int) (width : Byte) (data : List Byte) : exec (.setCustomChar x width data) s = execSetCustomChar x width data s := rfl
@[simp] theorem exec_wNoop : exec .wNoop s = execWNoop s := rfl
@[simp] theorem exec_wRow1 (data : Byte) : exec (.wRow1 data) s = execWRow1 data s := rfl
@[simp] theorem exec_wRow2 (data : Byte) : exec (.wRow2 data) s = execWRow2 data s := rfl
@[simp] theorem exec_wRow3 (data : Byte) : exec (.wRow3 data) s = execWRow3 data s := rfl
@[simp] theorem exec_wRow4 (data : Byte) : exec (.wRow4 data) s = execWRow4 data s := rfl
@[simp] theorem exec_wRow5 (data : Byte) : exec (.wRow5 data) s = execWRow5 data s := rfl
@[simp] theorem exec_wRow6 (data : Byte) : exec (.wRow6 data) s = execWRow6 data s := rfl
@[simp] theorem exec_wRow7 (data : Byte) : exec (.wRow7 data) s = execWRow7 data s := rfl
@[simp] theorem exec_wRow8 (data : Byte) : exec (.wRow8 data) s = execWRow8 data s := rfl
@[simp] theorem exec_wDecodeMode (data : Byte) : exec (.wDecodeMode data) s = execWDecodeMode data s := rfl
@[simp] theorem exec_wIntensity (data : Byte) : exec (.wIntensity data) s = execWIntensity data s := rfl
@[simp] theorem exec_wScanLimit (data : Byte) : exec (.wScanLimit data) s = execWScanLimit data s := rfl
@[simp] theorem exec_wShutdown (data : Byte) : exec (.wShutdown data) s = execWShutdown data s := rfl
@[simp] theorem exec_wDisplayTest (data : Byte) : exec (.wDisplayTest data) s = execWDisplayTest data s := rfl

end Sys2Proof.Machine
end

