-- ==== Sys2Proof/Laws/PerInstr.lean ====
section
/-! SUPPORT. The family EncodingFormat: the encoding of every instruction has the format its row of spec/opcode_table.json gives it
(30_encoding.md R80, R86 to R88): a command has its opcode in bits 39:32 and carries a payload only if its row does; a serial word
has its register address in bits 15:8. One lemma per constructor. -/

namespace Sys2Proof.Laws.EncodingFormat

/-- The opcode, or the register address, that the row of an instruction gives it. -/
def rowCode : Instr → Nat
  | .clear => 0x10
  | .setPixel _ _ => 0x11
  | .setColumn _ _ => 0x12
  | .initializeChain => 0x20
  | .writeRegister _ _ _ => 0x21
  | .writeRegisterAll _ _ => 0x22
  | .setIntensity _ => 0x23
  | .commit => 0x24
  | .setCharWidth _ => 0x30
  | .setTextAlignment _ => 0x31
  | .setText _ => 0x32
  | .setNextText _ => 0x33
  | .setRotate _ => 0x34
  | .scrollTextRight => 0x35
  | .scrollTextLeft => 0x36
  | .oscillateText => 0x37
  | .drawText => 0x40
  | .setCustomChar _ _ _ => 0x41
  | .wNoop => 0x00
  | .wRow1 _ => 0x01
  | .wRow2 _ => 0x02
  | .wRow3 _ => 0x03
  | .wRow4 _ => 0x04
  | .wRow5 _ => 0x05
  | .wRow6 _ => 0x06
  | .wRow7 _ => 0x07
  | .wRow8 _ => 0x08
  | .wDecodeMode _ => 0x09
  | .wIntensity _ => 0x0A
  | .wScanLimit _ => 0x0B
  | .wShutdown _ => 0x0C
  | .wDisplayTest _ => 0x0F

/-- The payload that the row of an instruction gives it. -/
def rowPayload : Instr → List Byte
  | .setText text => text
  | .setNextText text => text
  | .setCustomChar _ _ data => data
  | _ => []

/-- The encoding has the row's format. -/
def Statement (i : Instr) : Prop :=
  match encode i with
  | .command h p => (opField h).toNat = rowCode i ∧ p = rowPayload i ∧ Machine.isCommand i = true
  | .word w => (regField w).toNat = rowCode i ∧ Machine.isCommand i = false

theorem clear : Statement .clear :=
  ⟨congrArg BitVec.toNat (opField_header _ _ _ _), rfl, rfl⟩

theorem setPixel (col : Int) (row : Fin 8) : Statement (.setPixel col row) :=
  ⟨congrArg BitVec.toNat (opField_header _ _ _ _), rfl, rfl⟩

theorem setColumn (col : Int) (value : Byte) : Statement (.setColumn col value) :=
  ⟨congrArg BitVec.toNat (opField_header _ _ _ _), rfl, rfl⟩

theorem initializeChain : Statement .initializeChain :=
  ⟨congrArg BitVec.toNat (opField_header _ _ _ _), rfl, rfl⟩

theorem writeRegister (device : Int) (register value : Byte) : Statement (.writeRegister device register value) :=
  ⟨congrArg BitVec.toNat (opField_header _ _ _ _), rfl, rfl⟩

theorem writeRegisterAll (register value : Byte) : Statement (.writeRegisterAll register value) :=
  ⟨congrArg BitVec.toNat (opField_header _ _ _ _), rfl, rfl⟩

theorem setIntensity (level : Byte) : Statement (.setIntensity level) :=
  ⟨congrArg BitVec.toNat (opField_header _ _ _ _), rfl, rfl⟩

theorem commit : Statement .commit :=
  ⟨congrArg BitVec.toNat (opField_header _ _ _ _), rfl, rfl⟩

theorem setCharWidth (width : Byte) : Statement (.setCharWidth width) :=
  ⟨congrArg BitVec.toNat (opField_header _ _ _ _), rfl, rfl⟩

theorem setTextAlignment (mode : AlignmentMode) : Statement (.setTextAlignment mode) :=
  ⟨congrArg BitVec.toNat (opField_header _ _ _ _), rfl, rfl⟩

theorem setText (text : List Byte) : Statement (.setText text) :=
  ⟨congrArg BitVec.toNat (opField_header _ _ _ _), rfl, rfl⟩

theorem setNextText (text : List Byte) : Statement (.setNextText text) :=
  ⟨congrArg BitVec.toNat (opField_header _ _ _ _), rfl, rfl⟩

theorem setRotate (enabled : Bool) : Statement (.setRotate enabled) :=
  ⟨congrArg BitVec.toNat (opField_header _ _ _ _), rfl, rfl⟩

theorem scrollTextRight : Statement .scrollTextRight :=
  ⟨congrArg BitVec.toNat (opField_header _ _ _ _), rfl, rfl⟩

theorem scrollTextLeft : Statement .scrollTextLeft :=
  ⟨congrArg BitVec.toNat (opField_header _ _ _ _), rfl, rfl⟩

theorem oscillateText : Statement .oscillateText :=
  ⟨congrArg BitVec.toNat (opField_header _ _ _ _), rfl, rfl⟩

theorem drawText : Statement .drawText :=
  ⟨congrArg BitVec.toNat (opField_header _ _ _ _), rfl, rfl⟩

theorem setCustomChar (x : Int) (width : Byte) (data : List Byte) : Statement (.setCustomChar x width data) :=
  ⟨congrArg BitVec.toNat (opField_header _ _ _ _), rfl, rfl⟩

theorem wNoop : Statement .wNoop := ⟨rfl, rfl⟩

theorem wRow1 (data : Byte) : Statement (.wRow1 data) :=
  ⟨congrArg BitVec.toNat (Machine.regField_serialWord _ data), rfl⟩

theorem wRow2 (data : Byte) : Statement (.wRow2 data) :=
  ⟨congrArg BitVec.toNat (Machine.regField_serialWord _ data), rfl⟩

theorem wRow3 (data : Byte) : Statement (.wRow3 data) :=
  ⟨congrArg BitVec.toNat (Machine.regField_serialWord _ data), rfl⟩

theorem wRow4 (data : Byte) : Statement (.wRow4 data) :=
  ⟨congrArg BitVec.toNat (Machine.regField_serialWord _ data), rfl⟩

theorem wRow5 (data : Byte) : Statement (.wRow5 data) :=
  ⟨congrArg BitVec.toNat (Machine.regField_serialWord _ data), rfl⟩

theorem wRow6 (data : Byte) : Statement (.wRow6 data) :=
  ⟨congrArg BitVec.toNat (Machine.regField_serialWord _ data), rfl⟩

theorem wRow7 (data : Byte) : Statement (.wRow7 data) :=
  ⟨congrArg BitVec.toNat (Machine.regField_serialWord _ data), rfl⟩

theorem wRow8 (data : Byte) : Statement (.wRow8 data) :=
  ⟨congrArg BitVec.toNat (Machine.regField_serialWord _ data), rfl⟩

theorem wDecodeMode (data : Byte) : Statement (.wDecodeMode data) :=
  ⟨congrArg BitVec.toNat (Machine.regField_serialWord _ data), rfl⟩

theorem wIntensity (data : Byte) : Statement (.wIntensity data) :=
  ⟨congrArg BitVec.toNat (Machine.regField_serialWord _ data), rfl⟩

theorem wScanLimit (data : Byte) : Statement (.wScanLimit data) :=
  ⟨congrArg BitVec.toNat (Machine.regField_serialWord _ data), rfl⟩

theorem wShutdown (data : Byte) : Statement (.wShutdown data) :=
  ⟨congrArg BitVec.toNat (Machine.regField_serialWord _ data), rfl⟩

theorem wDisplayTest (data : Byte) : Statement (.wDisplayTest data) :=
  ⟨congrArg BitVec.toNat (Machine.regField_serialWord _ data), rfl⟩

end Sys2Proof.Laws.EncodingFormat
end

