-- ==== Sys2Proof/Laws/Render.lean ====
section
/-! SUPPORT. What the column primitives and the render primitive do: they write the framebuffer alone, and the abort never fires. -/

namespace Sys2Proof.Machine

/-! ### Columns and pixels -/

theorem readColumn_writeColumn (s : State) (c k : Nat) (v : Byte) :
    readColumn (writeColumn c v s) k = if k = c then v else readColumn s k := by
  simp only [readColumn, writeColumn_fb, writeColumn_draws, readCell_writeCell]
  split <;> rfl

theorem pixelBit_getLsbD (r k : Nat) (hr : r < 8) : (pixelBit r).getLsbD k = decide (k = r) := by
  simp only [pixelBit, BitVec.getLsbD_shiftLeft, BitVec.getLsbD_one]
  by_cases h : k = r
  · subst h; simp [hr]
  · simp only [h, decide_false]
    by_cases h2 : k < r
    · simp [h2]
    · have : k - r ≠ 0 := by omega
      simp [this]

/-- SetPixel sets one bit of one column (R111). -/
theorem pixel_setPixelAt (s : State) {c row : Nat} (hr : row < 8) (k r : Nat) :
    pixel (setPixelAt c row s) k r = (pixel s k r || decide (k = c ∧ r = row)) := by
  simp only [pixel, setPixelAt, readColumn_writeColumn]
  split
  · rename_i h; subst h; simp [pixelBit_getLsbD _ _ hr]
  · rename_i h; simp [h]

@[simp] theorem setPixelAt_displayColumns (c row : Nat) (s : State) : displayColumns (setPixelAt c row s) = displayColumns s := rfl

/-! ### A relation every render step keeps -/

/-- The state differs in the framebuffer alone. -/
def SameButFb (s t : State) : Prop := t = { s with fb := t.fb }

theorem sameButFb_refl (s : State) : SameButFb s s := rfl

theorem sameButFb_trans {s t u : State} (h : SameButFb s t) (h' : SameButFb t u) : SameButFb s u := by
  unfold SameButFb at *; rw [h', h]

theorem sameButFb_writeColumn (c : Nat) (v : Byte) (s : State) : SameButFb s (writeColumn c v s) := rfl

theorem sameButFb_setPixelAt (c row : Nat) (s : State) : SameButFb s (setPixelAt c row s) := rfl

theorem sameButFb_setColumnAt (c : Int) (v : Byte) (s : State) : SameButFb s (setColumnAt c v s) := by
  unfold setColumnAt; split
  · exact sameButFb_writeColumn _ _ _
  · exact sameButFb_refl _

/-- What two states that differ in the framebuffer alone have in common. -/
theorem sameButFb_fields {s t : State} (h : SameButFb s t) :
    t.numDevices = s.numDevices ∧ t.rotationEnabled = s.rotationEnabled ∧ t.charWidth = s.charWidth ∧
      t.scrollCursor = s.scrollCursor ∧ t.alignmentOffset = s.alignmentOffset ∧ t.font = s.font ∧ t.draws = s.draws ∧
      displayColumns t = displayColumns s := by
  unfold SameButFb at h
  rw [h]
  simp [displayColumns]

/-! ### The rotated path -/

/-- A rotated target column of an in-range position is in range (43_render_ops.md R162): the position's device owns it. -/
theorem rotated_target_in_range {s : State} {p row : Nat} (hp : p < displayColumns s) (hr : row < 8) :
    p / 8 * 8 + row < displayColumns s := by
  unfold displayColumns at *; omega

theorem readCell_setPixelAt_other (s : State) {c k : Nat} (row : Nat) (h : k ≠ c) :
    readCell (setPixelAt c row s).fb k = readCell s.fb k := by
  simp [setPixelAt, h]

/-- What the rotated path does at an in-range position: it never aborts, writes the framebuffer alone, sets the glyph's bits, and
leaves every column that no set bit maps to. -/
theorem renderBits_spec {p : Nat} {byte : Byte} {rows : List Nat} {s : State} (hp : p < displayColumns s)
    (hrows : ∀ r ∈ rows, r < 8) :
    ∃ t, renderBits p byte rows s = .done t ∧ SameButFb s t ∧
      (∀ c r, pixel t c r = (pixel s c r ||
        decide (∃ row ∈ rows, byte.getLsbD row = true ∧ c = p / 8 * 8 + row ∧ r = 7 - p % 8))) ∧
      ∀ c, (∀ row ∈ rows, byte.getLsbD row = true → c ≠ p / 8 * 8 + row) → readCell t.fb c = readCell s.fb c := by
  induction rows generalizing s with
  | nil => exact ⟨s, rfl, sameButFb_refl s, by simp, fun _ _ => rfl⟩
  | cons row rest ih =>
    have hrow : row < 8 := hrows row (by simp)
    have hrest : ∀ r ∈ rest, r < 8 := fun r hr => hrows r (by simp [hr])
    by_cases hb : byte.getLsbD row = true
    · have hin := rotated_target_in_range hp hrow
      obtain ⟨t, h1, h2, h3, h4⟩ := ih (s := setPixelAt (p / 8 * 8 + row) (7 - p % 8) s) hp hrest
      refine ⟨t, by simp only [renderBits, hb, if_true, if_pos hin, h1], sameButFb_trans (sameButFb_setPixelAt _ _ _) h2, ?_, ?_⟩
      · intro c r
        rw [h3, pixel_setPixelAt s (by omega), Bool.or_assoc]
        congr 1
        simp only [List.mem_cons, exists_eq_or_imp, hb, true_and]
        rw [Bool.decide_or]
      · intro c hc
        rw [h4 c fun r hr => hc r (by simp [hr]), readCell_setPixelAt_other s _ (hc row (by simp) hb)]
    · obtain ⟨t, h1, h2, h3, h4⟩ := ih (s := s) hp hrest
      refine ⟨t, by simp only [renderBits, hb, h1]; rfl, h2, ?_, fun c hc => h4 c fun r hr => hc r (by simp [hr])⟩
      intro c r
      rw [h3]
      simp [List.mem_cons, exists_eq_or_imp, hb]

/-- The pixels that glyph columns `bytes`, the first at position `p`, light by the rotated path (43_render_ops.md R162). -/
def RotatedLights (cols : Nat) (p : Int) (bytes : List Byte) (c r : Nat) : Prop :=
  ∃ (k : Nat) (byte : Byte) (row : Nat), bytes[k]? = some byte ∧ byte.getLsbD row = true ∧ row < 8 ∧ 0 ≤ p + k ∧ p + k < cols ∧
    c = (p + k).toNat / 8 * 8 + row ∧ r = 7 - (p + k).toNat % 8

theorem rotatedLights_nil (cols : Nat) (p : Int) (c r : Nat) : ¬ RotatedLights cols p [] c r := by
  simp [RotatedLights]

theorem rotatedLights_cons (cols : Nat) (p : Int) (b : Byte) (bs : List Byte) (c r : Nat) :
    RotatedLights cols p (b :: bs) c r ↔
      (∃ row, b.getLsbD row = true ∧ row < 8 ∧ 0 ≤ p ∧ p < cols ∧ c = p.toNat / 8 * 8 + row ∧ r = 7 - p.toNat % 8) ∨
        RotatedLights cols (p + 1) bs c r := by
  constructor
  · rintro ⟨k, byte, row, h1, h2, h3, h4, h5, h6, h7⟩
    cases k with
    | zero =>
      simp only [List.getElem?_cons_zero, Option.some.injEq] at h1
      subst h1
      exact .inl ⟨row, h2, h3, by simpa using h4, by simpa using h5, by simpa using h6, by simpa using h7⟩
    | succ k =>
      have e : p + ((k + 1 : Nat) : Int) = p + 1 + k := by push_cast; ring
      rw [e] at h4 h5 h6 h7
      exact .inr ⟨k, byte, row, by simpa using h1, h2, h3, h4, h5, h6, h7⟩
  · rintro (⟨row, h2, h3, h4, h5, h6, h7⟩ | ⟨k, byte, row, h1, h2, h3, h4, h5, h6, h7⟩)
    · exact ⟨0, b, row, rfl, h2, h3, by simpa using h4, by simpa using h5, by simpa using h6, by simpa using h7⟩
    · have e : p + ((k + 1 : Nat) : Int) = p + 1 + k := by push_cast; ring
      exact ⟨k + 1, byte, row, by simpa using h1, h2, h3, by rw [e]; exact h4, by rw [e]; exact h5, by rw [e]; exact h6,
        by rw [e]; exact h7⟩

/-- What the render primitive does with rotation on: it never aborts, writes the framebuffer alone, lights the glyph's pixels, and
leaves every column without such a pixel. -/
theorem render_rotated_spec {p : Int} {bytes : List Byte} {s : State} (hrot : s.rotationEnabled = true) :
    ∃ t, render p bytes s = .done t ∧ SameButFb s t ∧
      (∀ c r, pixel t c r = true ↔ pixel s c r = true ∨ RotatedLights (displayColumns s) p bytes c r) ∧
      ∀ c, (∀ r, ¬ RotatedLights (displayColumns s) p bytes c r) → readCell t.fb c = readCell s.fb c := by
  induction bytes generalizing p s with
  | nil => exact ⟨s, rfl, sameButFb_refl s, by simp [rotatedLights_nil], fun _ _ => rfl⟩
  | cons b bs ih =>
    by_cases hin : columnInRange s p
    · have hp : p.toNat < displayColumns s := by have := hin.1; have := hin.2; omega
      obtain ⟨u, h1, h2, h3, h4⟩ := renderBits_spec (byte := b) (rows := List.range 8) hp (by simp)
      have hf := sameButFb_fields h2
      obtain ⟨t, g1, g2, g3, g4⟩ := ih (p := p + 1) (s := u) (by rw [hf.2.1, hrot])
      refine ⟨t, by simp only [render, if_pos hin, renderColumn, hrot, if_true, h1, g1], sameButFb_trans h2 g2, ?_, ?_⟩
      · intro c r
        rw [g3, h3, rotatedLights_cons, hf.2.2.2.2.2.2.2]
        simp only [Bool.or_eq_true, decide_eq_true_eq, List.mem_range, or_assoc]
        refine or_congr_right (or_congr_left ?_)
        constructor
        · rintro ⟨row, a1, a2, a3, a4⟩; exact ⟨row, a2, a1, hin.1, hin.2, a3, a4⟩
        · rintro ⟨row, a1, a2, _, _, a3, a4⟩; exact ⟨row, a2, a1, a3, a4⟩
      · intro c hc
        rw [hf.2.2.2.2.2.2.2] at g4
        rw [g4 c fun r hr => hc r ((rotatedLights_cons _ _ _ _ _ _).2 (.inr hr)), h4 c]
        intro row hrow hb e
        exact hc (7 - p.toNat % 8) ((rotatedLights_cons _ _ _ _ _ _).2
          (.inl ⟨row, hb, List.mem_range.1 hrow, hin.1, hin.2, e, rfl⟩))
    · obtain ⟨t, g1, g2, g3, g4⟩ := ih (p := p + 1) (s := s) hrot
      have e : ∀ c r, RotatedLights (displayColumns s) p (b :: bs) c r ↔ RotatedLights (displayColumns s) (p + 1) bs c r := by
        intro c r
        rw [rotatedLights_cons]
        constructor
        · rintro (⟨row, _, _, a3, a4, _⟩ | h)
          · exact absurd ⟨a3, a4⟩ hin
          · exact h
        · exact .inr
      refine ⟨t, by simp only [render, if_neg hin, g1], g2, ?_, ?_⟩
      · intro c r; rw [g3, e]
      · intro c hc; exact g4 c fun r hr => hc r ((e c r).2 hr)

/-! ### The plain path -/

/-- What the render primitive does with rotation off: it never aborts, writes the framebuffer alone, and overwrites exactly the
in-range positions (43_render_ops.md R160, R161, R166). -/
theorem render_plain_spec {p : Int} {bytes : List Byte} {s : State} (hrot : s.rotationEnabled = false) :
    ∃ t, render p bytes s = .done t ∧ SameButFb s t ∧
      ∀ c : Nat, readCell t.fb c =
        if p ≤ c ∧ (c : Int) < p + bytes.length ∧ c < displayColumns s then bytes[((c : Int) - p).toNat]? else readCell s.fb c := by
  induction bytes generalizing p s with
  | nil =>
    refine ⟨s, rfl, sameButFb_refl s, fun c => ?_⟩
    rw [if_neg]; simp only [List.length_nil]; omega
  | cons b bs ih =>
    by_cases hin : columnInRange s p
    · have hcol : setColumnAt (p.toNat : Int) b s = writeColumn p.toNat b s := by
        rw [setColumnAt, if_pos ⟨by omega, by have := hin.2; have := hin.1; omega⟩, Int.toNat_natCast]
      obtain ⟨t, g1, g2, g3⟩ := ih (p := p + 1) (s := writeColumn p.toNat b s) hrot
      refine ⟨t, by simp only [render, if_pos hin, renderColumn, hrot, hcol, Bool.false_eq_true, if_false, g1],
        sameButFb_trans (sameButFb_writeColumn _ _ _) g2, fun c => ?_⟩
      rw [g3]
      simp only [writeColumn_displayColumns, writeColumn_fb, readCell_writeCell, List.length_cons]
      have h0 := hin.1; have h1 := hin.2
      by_cases hc : (c : Int) = p
      · rw [if_neg (by omega), if_pos (by omega), if_pos (by omega)]
        have : ((c : Int) - p).toNat = 0 := by omega
        simp [this]
      · by_cases hr : p ≤ c ∧ (c : Int) < p + (bs.length + 1) ∧ c < displayColumns s
        · rw [if_pos (by omega), if_pos (by push_cast; omega)]
          have : ((c : Int) - p).toNat = ((c : Int) - (p + 1)).toNat + 1 := by omega
          rw [this, List.getElem?_cons_succ]
        · rw [if_neg (by omega), if_neg (by omega), if_neg (by push_cast; omega)]
    · obtain ⟨t, g1, g2, g3⟩ := ih (p := p + 1) (s := s) hrot
      refine ⟨t, by simp only [render, if_neg hin, g1], g2, fun c => ?_⟩
      rw [g3]
      simp only [List.length_cons]
      have hc : c < displayColumns s → (c : Int) ≠ p := fun h e => hin ⟨by omega, by omega⟩
      by_cases hr : p ≤ c ∧ (c : Int) < p + (bs.length + 1) ∧ c < displayColumns s
      · have := hc hr.2.2
        rw [if_pos (by omega), if_pos (by push_cast; omega)]
        have : ((c : Int) - p).toNat = ((c : Int) - (p + 1)).toNat + 1 := by omega
        rw [this, List.getElem?_cons_succ]
      · rw [if_neg (by omega), if_neg (by push_cast; omega)]

/-- The render primitive never aborts when it is entered through R160, and writes the framebuffer alone. -/
theorem render_done (p : Int) (bytes : List Byte) (s : State) : ∃ t, render p bytes s = .done t ∧ SameButFb s t := by
  cases h : s.rotationEnabled with
  | true => obtain ⟨t, h1, h2, _, _⟩ := render_rotated_spec (p := p) (bytes := bytes) h; exact ⟨t, h1, h2⟩
  | false => obtain ⟨t, h1, h2, _⟩ := render_plain_spec (p := p) (bytes := bytes) h; exact ⟨t, h1, h2⟩

/-! ### A text -/

@[simp] theorem glyph_length (s : State) (code : Byte) : (glyph s code).length = 8 := by simp [glyph]

theorem glyph_getElem? (s : State) (code : Byte) {k : Nat} (hk : k < 8) : (glyph s code)[k]? = some (fontByte s code k) := by
  simp [glyph, hk]

theorem glyph_congr {s t : State} (h : t.font = s.font) (code : Byte) : glyph t code = glyph s code := by
  simp only [glyph]; congr 1; funext k; simp [fontByte, h]

/-- The loop of DRAW_TEXT never aborts and writes the framebuffer alone. -/
theorem renderText_done (i : Nat) (text : List Byte) (s : State) : ∃ t, renderText i text s = .done t ∧ SameButFb s t := by
  induction text generalizing i s with
  | nil => exact ⟨s, rfl, sameButFb_refl s⟩
  | cons code rest ih =>
    obtain ⟨u, h1, h2⟩ := render_done ((i : Int) * s.charWidth.toNat + s.scrollCursor + s.alignmentOffset)
      ((glyph s code).take s.charWidth.toNat) s
    obtain ⟨t, g1, g2⟩ := ih (i + 1) u
    exact ⟨t, by simp only [renderText, h1, g1], sameButFb_trans h2 g2⟩

/-- Where column `col` of character `i` lands (43_render_ops.md R163). -/
def textPosition (s : State) (i col : Nat) : Int := (i : Int) * s.charWidth.toNat + col + s.scrollCursor + s.alignmentOffset

theorem textPosition_inj {s : State} {i j col col' : Nat} (hc : col < s.charWidth.toNat) (hc' : col' < s.charWidth.toNat)
    (h : textPosition s i col = textPosition s j col') : i = j ∧ col = col' := by
  unfold textPosition at h
  have h' : i * s.charWidth.toNat + col = j * s.charWidth.toNat + col' := by
    have : (i : Int) * s.charWidth.toNat + col = (j : Int) * s.charWidth.toNat + col' := by linarith
    exact_mod_cast this
  generalize s.charWidth.toNat = w at *
  have hi : i = j := by
    have e1 : (i * w + col) / w = i := by rw [Nat.mul_comm, Nat.mul_add_div (by omega), Nat.div_eq_of_lt hc]; rfl
    have e2 : (j * w + col') / w = j := by rw [Nat.mul_comm, Nat.mul_add_div (by omega), Nat.div_eq_of_lt hc']; rfl
    rw [← e1, h', e2]
  subst hi
  exact ⟨rfl, by omega⟩

theorem take_glyph_getElem? (s : State) (code : Byte) {k w : Nat} (hw : w ≤ 8) (hk : k < w) :
    ((glyph s code).take w)[k]? = some (fontByte s code k) := by
  rw [List.getElem?_take, if_pos hk, glyph_getElem? s code (by omega)]

/-- What DRAW_TEXT's loop does with rotation off: each in-range glyph column takes its byte, every other column stays. -/
theorem renderText_plain_spec {i : Nat} {text : List Byte} {s : State} (hrot : s.rotationEnabled = false)
    (hw : s.charWidth.toNat ≤ 8) :
    ∃ t, renderText i text s = .done t ∧ SameButFb s t ∧
      (∀ (j col c : Nat) (code : Byte), text[j]? = some code → col < s.charWidth.toNat → (c : Int) = textPosition s (i + j) col →
        c < displayColumns s → readCell t.fb c = some (fontByte s code col)) ∧
      ∀ c : Nat, ((∀ j col, j < text.length → col < s.charWidth.toNat → (c : Int) ≠ textPosition s (i + j) col) ∨
        displayColumns s ≤ c) → readCell t.fb c = readCell s.fb c := by
  induction text generalizing i s with
  | nil => exact ⟨s, rfl, sameButFb_refl s, by simp, fun _ _ => rfl⟩
  | cons code rest ih =>
    obtain ⟨u, h1, h2, h3⟩ := render_plain_spec
      (p := (i : Int) * s.charWidth.toNat + s.scrollCursor + s.alignmentOffset)
      (bytes := (glyph s code).take s.charWidth.toNat) hrot
    have hf := sameButFb_fields h2
    obtain ⟨t, g1, g2, g3, g4⟩ := ih (i := i + 1) (s := u) (by rw [hf.2.1, hrot]) (by rw [hf.2.2.1]; exact hw)
    have hpos : ∀ a b, textPosition u a b = textPosition s a b := by
      intro a b; simp only [textPosition, hf.2.2.1, hf.2.2.2.1, hf.2.2.2.2.1]
    have hlen : ((glyph s code).take s.charWidth.toNat).length = s.charWidth.toNat := by simp; omega
    have hfont : ∀ cd k, fontByte u cd k = fontByte s cd k := by intro cd k; simp only [fontByte, hf.2.2.2.2.2.1]
    simp only [hpos, hf.2.2.1, hf.2.2.2.2.2.2.2, hfont] at g3 g4
    rw [hlen] at h3
    refine ⟨t, by simp only [renderText, h1, g1], sameButFb_trans h2 g2, ?_, ?_⟩
    · intro j col c cd hj hcol hc hin
      cases j with
      | zero =>
        simp only [List.getElem?_cons_zero, Option.some.injEq] at hj
        subst hj
        rw [g4 c (.inl fun j' col' _ hcol' e => ?_), h3]
        · simp only [textPosition, Nat.add_zero] at hc
          rw [if_pos ⟨by omega, by omega, hin⟩]
          have : ((c : Int) - ((i : Int) * s.charWidth.toNat + s.scrollCursor + s.alignmentOffset)).toNat = col := by omega
          rw [this, take_glyph_getElem? s code hw hcol]
        · rw [hc] at e
          have := (textPosition_inj hcol hcol' e).1
          omega
      | succ j =>
        exact g3 j col c cd (by simpa using hj) hcol (by rw [hc]; congr 1; omega) hin
    · intro c hc
      rw [g4 c, h3, if_neg]
      · rintro ⟨a1, a2, a3⟩
        rcases hc with hc | hc
        · refine hc 0 ((c : Int) - ((i : Int) * s.charWidth.toNat + s.scrollCursor + s.alignmentOffset)).toNat (by simp) (by omega) ?_
          simp only [textPosition, Nat.add_zero]; omega
        · omega
      · rcases hc with hc | hc
        · refine .inl fun j col hj hcol e => hc (j + 1) col (by simpa using hj) hcol ?_
          rw [e]; congr 1; omega
        · exact .inr hc

/-- What DRAW_TEXT's loop does with rotation on: the pixels its glyph columns light, and no other. -/
theorem renderText_rotated_spec {i : Nat} {text : List Byte} {s : State} (hrot : s.rotationEnabled = true) :
    ∃ t, renderText i text s = .done t ∧ SameButFb s t ∧
      (∀ c r, pixel t c r = true ↔ pixel s c r = true ∨ ∃ j code, text[j]? = some code ∧
        RotatedLights (displayColumns s) (textPosition s (i + j) 0) ((glyph s code).take s.charWidth.toNat) c r) ∧
      ∀ c, (∀ r j code, text[j]? = some code →
        ¬ RotatedLights (displayColumns s) (textPosition s (i + j) 0) ((glyph s code).take s.charWidth.toNat) c r) →
        readCell t.fb c = readCell s.fb c := by
  induction text generalizing i s with
  | nil => exact ⟨s, rfl, sameButFb_refl s, by simp, fun _ _ => rfl⟩
  | cons code rest ih =>
    obtain ⟨u, h1, h2, h3, h4⟩ := render_rotated_spec
      (p := (i : Int) * s.charWidth.toNat + s.scrollCursor + s.alignmentOffset)
      (bytes := (glyph s code).take s.charWidth.toNat) hrot
    have hf := sameButFb_fields h2
    obtain ⟨t, g1, g2, g3, g4⟩ := ih (i := i + 1) (s := u) (by rw [hf.2.1, hrot])
    have hpos : ∀ a b, textPosition u a b = textPosition s a b := by
      intro a b; simp only [textPosition, hf.2.2.1, hf.2.2.2.1, hf.2.2.2.2.1]
    have hbase : (i : Int) * s.charWidth.toNat + s.scrollCursor + s.alignmentOffset = textPosition s (i + 0) 0 := by
      simp [textPosition]
    have hidx : ∀ j, i + 1 + j = i + (j + 1) := by intro j; omega
    simp only [hpos, hf.2.2.1, hf.2.2.2.2.2.2.2, glyph_congr hf.2.2.2.2.2.1, hidx] at g3 g4
    rw [hbase] at h3 h4
    refine ⟨t, by simp only [renderText, h1, g1], sameButFb_trans h2 g2, ?_, ?_⟩
    · intro c r
      rw [g3, h3, or_assoc]
      refine or_congr_right ?_
      constructor
      · rintro (h | ⟨j, cd, hj, h⟩)
        · exact ⟨0, code, rfl, h⟩
        · exact ⟨j + 1, cd, by simpa using hj, h⟩
      · rintro ⟨j, cd, hj, h⟩
        cases j with
        | zero => simp only [List.getElem?_cons_zero, Option.some.injEq] at hj; subst hj; exact .inl h
        | succ j => exact .inr ⟨j, cd, by simpa using hj, h⟩
    · intro c hc
      rw [g4 c fun r j cd hj => hc r (j + 1) cd (by simpa using hj), h4 c fun r => hc r 0 code rfl]

/-! ### The framebuffer's form -/

/-- The framebuffer is in canonical form and inside its range. -/
def FbGood (s : State) : Prop := Memory.wf s.fb = true ∧ cellsBelow (displayColumns s) s.fb = true

theorem fbGood_writeColumn {s : State} {c : Nat} (v : Byte) (h : FbGood s) (hc : c < displayColumns s) : FbGood (writeColumn c v s) :=
  ⟨writeCell_wf c v h.1, writeCell_below v h.2 hc⟩

theorem fbGood_setPixelAt {s : State} {c : Nat} (row : Nat) (h : FbGood s) (hc : c < displayColumns s) : FbGood (setPixelAt c row s) :=
  fbGood_writeColumn _ h hc

theorem fbGood_setColumnAt {s : State} (c : Int) (v : Byte) (h : FbGood s) : FbGood (setColumnAt c v s) := by
  unfold setColumnAt
  split
  · rename_i hc; exact fbGood_writeColumn v h (by have := hc.1; have := hc.2; omega)
  · exact h

theorem fbGood_renderBits (p : Nat) (byte : Byte) (rows : List Nat) {s : State} (h : FbGood s) :
    FbGood (renderBits p byte rows s).state := by
  induction rows generalizing s with
  | nil => exact h
  | cons row rest ih =>
    simp only [renderBits]
    split
    · split
      · rename_i hc; exact ih (fbGood_setPixelAt _ h hc)
      · exact h
    · exact ih h

theorem fbGood_renderColumn (p : Nat) (byte : Byte) {s : State} (h : FbGood s) : FbGood (renderColumn p byte s).state := by
  unfold renderColumn
  split
  · exact fbGood_renderBits _ _ _ h
  · exact fbGood_setColumnAt _ _ h

theorem fbGood_render (p : Int) (bytes : List Byte) {s : State} (h : FbGood s) : FbGood (render p bytes s).state := by
  induction bytes generalizing p s with
  | nil => exact h
  | cons b bs ih =>
    simp only [render]
    split
    · have hc := fbGood_renderColumn p.toNat b h
      cases e : renderColumn p.toNat b s with
      | done t => rw [e] at hc; exact ih (p + 1) hc
      | aborted t => rw [e] at hc; exact hc
    · exact ih (p + 1) h

theorem fbGood_renderText (i : Nat) (text : List Byte) {s : State} (h : FbGood s) : FbGood (renderText i text s).state := by
  induction text generalizing i s with
  | nil => exact h
  | cons code rest ih =>
    have hc := fbGood_render ((i : Int) * s.charWidth.toNat + s.scrollCursor + s.alignmentOffset)
      ((glyph s code).take s.charWidth.toNat) h
    simp only [renderText]
    cases e : render ((i : Int) * s.charWidth.toNat + s.scrollCursor + s.alignmentOffset)
      ((glyph s code).take s.charWidth.toNat) s with
    | done t => rw [e] at hc; exact ih (i + 1) hc
    | aborted t => rw [e] at hc; exact hc

end Sys2Proof.Machine
end

