-- ==== Sys2Proof/Tests/Slice0.lean ====
section
/-! SUPPORT. Tests of the model. Expected results are those of 95_test_vectors.md (vector names F1, T2, D6v and so on, section 2.6 for
encodings) and of the examples in the rules; the words and headers are written out from 30_encoding.md. -/

namespace Sys2Proof.Tests

open Sys2Proof Sys2Proof.Machine

/-! ### A concrete machine -/

/-- The vectors' test font (95_test_vectors.md, "Test font"): A, B, H, I. -/
def testFont : Memory :=
  [(0x208, 0x7E), (0x209, 0x11), (0x20A, 0x11), (0x20B, 0x11), (0x20C, 0x7E), (0x20D, 0), (0x20E, 0), (0x20F, 0),
   (0x210, 0x7F), (0x211, 0x49), (0x212, 0x49), (0x213, 0x49), (0x214, 0x36), (0x215, 0), (0x216, 0), (0x217, 0)] ++
  [(0x240, 0x7F), (0x241, 0x08), (0x242, 0x08), (0x243, 0x08), (0x244, 0x7F), (0x245, 0), (0x246, 0), (0x247, 0),
   (0x248, 0), (0x249, 0x41), (0x24A, 0x7F), (0x24B, 0x41), (0x24C, 0), (0x24D, 0), (0x24E, 0), (0x24F, 0)]

def zeroChip : Chip where
  stage       := 0
  rows        := Vector.ofFn fun _ => 0
  decodeMode  := 0
  intensity   := 0
  scanLimit   := 0
  shutdown    := 0
  displayTest := 0

/-- A framebuffer holding the bytes given, from column 0 upward. -/
def fbOf (bytes : List Byte) : Memory := bytes.zipIdx.map fun c => (c.2, c.1)

/-- A machine of n devices with a known framebuffer, width 6, the bus open and chips of zeros. -/
def machine (n : Nat) (fb : List Byte) : State where
  numDevices           := n
  selectLine           := 0
  font                 := testFont
  fb                   := fbOf fb
  currentText          := []
  pendingNextText      := []
  charWidth            := 6
  scrollCursor         := 1
  alignmentMode        := .left
  alignmentOffset      := 0
  rotationEnabled      := false
  oscillationDirection := .minus
  busOpen              := true
  select               := .high
  tx                   := []
  chain                := List.replicate n zeroChip
  inbox                := []
  actingDevice         := 0
  draws                := 0

/-- N = 1, every framebuffer byte 0. -/
def one : State := machine 1 [0, 0, 0, 0, 0, 0, 0, 0]

/-- N = 2, every framebuffer byte 0. -/
def two : State := machine 2 [0, 0, 0, 0, 0, 0, 0, 0, 0, 0, 0, 0, 0, 0, 0, 0]

/-- N = 3, no framebuffer byte written. -/
def three : State := machine 3 []

/-- A text with its cursor. -/
def withText (text : List Byte) (cursor : Int) (s : State) : State := { s with currentText := text, scrollCursor := cursor }

def after (o : Host.Outcome State Fault Refusal) : Option State :=
  match o with
  | .next t => some t
  | .fault _ => none
  | .refused _ => none

def refusal (o : Host.Outcome State Fault Refusal) : Option Refusal :=
  match o with
  | .next _ => none
  | .fault _ => none
  | .refused r => some r

def fbAfter (i : Instr) (s : State) : Option (List Byte) := (after (exec i s)).map fun t => t.fb.map Prod.snd

def txAfter (i : Instr) (s : State) : Option (List SerialEvent) := (after (exec i s)).map State.tx

def cursorAfter (i : Instr) (s : State) : Option Int := (after (exec i s)).map State.scrollCursor

def offsetAfter (i : Instr) (s : State) : Option Int := (after (exec i s)).map State.alignmentOffset

/-- A register of device d's chip after an instruction. -/
def registerAfter (i : Instr) (s : State) (d : Nat) (a : Byte) : Option Byte :=
  (after (exec i s)).bind fun t => t.chain[d]?.bind fun c => chipRegister c a

/-! ### WellFormed: an ill-formed term for each check -/

theorem test_wf_column_low : Instr.wellFormed (.setPixel (-32769) 0) = false := by decide
theorem test_wf_column_high : Instr.wellFormed (.setColumn 32768 0) = false := by decide
theorem test_wf_device : Instr.wellFormed (.writeRegister 32768 0 0) = false := by decide
theorem test_wf_x : Instr.wellFormed (.setCustomChar (-32769) 0 []) = false := by decide

/-- A payload of 65536 bytes fits no command (R87). -/
theorem test_wf_payload (p : List Byte) (h : p.length = 65536) :
    Instr.wellFormed (.setText p) = false ∧ Instr.wellFormed (.setNextText p) = false ∧
      Instr.wellFormed (.setCustomChar 0 0 p) = false := by
  simp [Instr.wellFormed, fitsPayload, h, Config.payloadLimit]

theorem test_wf_payload_exists : (List.replicate 65536 (0 : Byte)).length = 65536 := List.length_replicate

theorem test_wf_boundaries : Instr.wellFormed (.setPixel (-32768) 7) = true ∧ Instr.wellFormed (.setColumn 32767 255) = true ∧
    Instr.wellFormed (.setCustomChar (-32768) 255 [1]) = true := by decide

/-! ### Decoding: headers of 95_test_vectors.md 2.6, words of 30_encoding.md R82 to R84 -/

theorem test_decode_clear : decodeTableWord 40 0x1000000000 = some .clear := by decide
theorem test_decode_setPixel : decodeTableWord 40 0x110009FF00 = some (.setPixel 9 7) := by decide
theorem test_decode_setColumn : decodeTableWord 40 0x120003007E = some (.setColumn 3 0x7E) := by decide
theorem test_decode_setColumn_negative : decodeTableWord 40 0x12FFFF00AA = some (.setColumn (-1) 0xAA) := by decide
theorem test_decode_initialize : decodeTableWord 40 0x2000000000 = some .initializeChain := by decide
theorem test_decode_writeRegister : decodeTableWord 40 0x2100010A08 = some (.writeRegister 1 0x0A 8) := by decide
theorem test_decode_writeRegisterAll : decodeTableWord 40 0x2200000C00 = some (.writeRegisterAll 0x0C 0) := by decide
theorem test_decode_setIntensity : decodeTableWord 40 0x230000000F = some (.setIntensity 15) := by decide
theorem test_decode_commit : decodeTableWord 40 0x2400000000 = some .commit := by decide
theorem test_decode_setCharWidth : decodeTableWord 40 0x3000000600 = some (.setCharWidth 6) := by decide
theorem test_decode_setTextAlignment : decodeTableWord 40 0x3100000200 = some (.setTextAlignment .right) := by decide
theorem test_decode_setText : decode (.command 0x3200000000 [0x48, 0x49]) = .instr (.setText [0x48, 0x49]) := by decide
theorem test_decode_setNextText : decode (.command 0x3300000000 [0x41]) = .instr (.setNextText [0x41]) := by decide
theorem test_decode_setRotate : decodeTableWord 40 0x3400000100 = some (.setRotate true) := by decide
theorem test_decode_scrollTextRight : decodeTableWord 40 0x3500000000 = some .scrollTextRight := by decide
theorem test_decode_scrollTextLeft : decodeTableWord 40 0x3600000000 = some .scrollTextLeft := by decide
theorem test_decode_oscillateText : decodeTableWord 40 0x3700000000 = some .oscillateText := by decide
theorem test_decode_drawText : decodeTableWord 40 0x4000000000 = some .drawText := by decide
theorem test_decode_setCustomChar :
    decode (.command 0x41FFFE0400 [0x11, 0x22, 0x33, 0x44]) = .instr (.setCustomChar (-2) 4 [0x11, 0x22, 0x33, 0x44]) := by decide
theorem test_decode_reserved : decodeTableWord 40 0 = none ∧ decodeTableWord 40 0x1300000000 = none ∧
    decodeTableWord 40 0xFF00000000 = none := by decide
theorem test_decode_wNoop : decodeTableWord 16 0x0000 = some .wNoop := by decide
theorem test_decode_wRow1 : decodeTableWord 16 0x017E = some (.wRow1 0x7E) := by decide
theorem test_decode_wRow2 : decodeTableWord 16 0x0281 = some (.wRow2 0x81) := by decide
theorem test_decode_wRow3 : decodeTableWord 16 0x0304 = some (.wRow3 0x04) := by decide
theorem test_decode_wRow4 : decodeTableWord 16 0x0408 = some (.wRow4 0x08) := by decide
theorem test_decode_wRow5 : decodeTableWord 16 0x0510 = some (.wRow5 0x10) := by decide
theorem test_decode_wRow6 : decodeTableWord 16 0x0620 = some (.wRow6 0x20) := by decide
theorem test_decode_wRow7 : decodeTableWord 16 0x0740 = some (.wRow7 0x40) := by decide
theorem test_decode_wRow8 : decodeTableWord 16 0x08FF = some (.wRow8 0xFF) := by decide
theorem test_decode_wDecodeMode : decodeTableWord 16 0x0900 = some (.wDecodeMode 0) := by decide
theorem test_decode_wIntensity : decodeTableWord 16 0x0A0F = some (.wIntensity 15) := by decide
theorem test_decode_wScanLimit : decodeTableWord 16 0x0B07 = some (.wScanLimit 7) := by decide
theorem test_decode_wShutdown : decodeTableWord 16 0x0C01 = some (.wShutdown 1) := by decide
theorem test_decode_wDisplayTest : decodeTableWord 16 0x0F00 = some (.wDisplayTest 0) := by decide
/-- Addresses outside the map, and address 0 with data, match no row (R82 to R84). -/
theorem test_decode_unmapped : decode (.word 0x0D00) = .unmapped 0x0D00 ∧ decode (.word 0x1001) = .unmapped 0x1001 ∧
    decode (.word 0x0001) = .unmapped 0x0001 := by decide

/-! ### Framebuffer commands (vectors F1 to F14) -/

theorem test_clear : fbAfter .clear (machine 1 [0xAA, 0x55, 0xAA, 0x55, 0xAA, 0x55, 0xAA, 0x55]) = some [0, 0, 0, 0, 0, 0, 0, 0] := by decide
/-- F12: the other bits are kept. -/
theorem test_setPixel_keeps : fbAfter (.setPixel 3 0) (machine 1 [0, 0, 0, 0x7E, 0, 0, 0, 0]) = some [0, 0, 0, 0x7F, 0, 0, 0, 0] := by decide
/-- F13, F14 -/
theorem test_setPixel_refused : refusal (exec (.setPixel 8 0) one) = some .pixelColumnOutOfRange ∧
    refusal (exec (.setPixel (-1) 0) one) = some .pixelColumnOutOfRange := by decide
/-- F4, F5 -/
theorem test_setColumn_edge : fbAfter (.setColumn 7 1) one = some [0, 0, 0, 0, 0, 0, 0, 1] ∧
    exec (.setColumn 8 1) one = .next one := ⟨by decide, rfl⟩
/-- F8 -/
theorem test_setColumn_overwrites : fbAfter (.setColumn 2 0) (machine 1 [255, 255, 255, 255, 255, 255, 255, 255]) =
    some [255, 255, 0, 255, 255, 255, 255, 255] := by decide

/-! ### Serial commands (vectors T1 to T16) -/

/-- T3 -/
theorem test_writeRegister : txAfter (.writeRegister 1 0x0A 8) three = some [.selAssert, .word 0, .word 0x0A08, .word 0, .selDeassert] := by decide
/-- T5, T6 -/
theorem test_writeRegister_refused : refusal (exec (.writeRegister 3 0x0A 8) three) = some .deviceOutOfRange ∧
    refusal (exec (.writeRegister (-1) 0x0A 8) three) = some .deviceOutOfRange := by decide
/-- T9 -/
theorem test_writeRegisterAll : txAfter (.writeRegisterAll 0x0C 0) two =
    some [.selAssert, .word 0, .word 0x0C00, .selDeassert, .selAssert, .word 0x0C00, .word 0, .selDeassert] := by decide
/-- T12: the level is sent unchanged. -/
theorem test_setIntensity : txAfter (.setIntensity 200) one = some [.selAssert, .word 0x0AC8, .selDeassert] := by decide
/-- T14 -/
theorem test_initialize : txAfter .initializeChain { one with busOpen := false } =
    some [.selAssert, .selDeassert, .selAssert, .word 0x0B07, .selDeassert, .selAssert, .word 0x0900, .selDeassert,
      .selAssert, .word 0x0F00, .selDeassert, .selAssert, .word 0x0A00, .selDeassert, .selAssert, .word 0x0C01, .selDeassert] := by decide
/-- T15 -/
theorem test_commit : txAfter .commit (machine 1 [1, 2, 4, 8, 0x10, 0x20, 0x40, 0x80]) =
    some [.selAssert, .word 0x0101, .selDeassert, .selAssert, .word 0x0202, .selDeassert, .selAssert, .word 0x0304, .selDeassert,
      .selAssert, .word 0x0408, .selDeassert, .selAssert, .word 0x0510, .selDeassert, .selAssert, .word 0x0620, .selDeassert,
      .selAssert, .word 0x0740, .selDeassert, .selAssert, .word 0x0880, .selDeassert] := by decide
/-- P2, after the last frame: row register 4 of device 0 and row register 2 of device 1. -/
theorem test_commit_chips :
    let s := machine 2 [0, 0, 0, 0x7E, 0, 0, 0, 0, 0, 0x81, 0, 0, 0, 0, 0, 0x81]
    registerAfter .commit s 0 4 = some 0x7E ∧ registerAfter .commit s 1 2 = some 0x81 := by decide

/-- R196, too few: N = 1 before two chips; the far chip acts on the stale word 0x0277 the near one held. -/
theorem test_too_few : registerAfter (.writeRegister 0 1 0x55) { one with chain := [{ zeroChip with stage := 0x0277 }, zeroChip] } 1 2 = some 0x77 ∧
    registerAfter (.writeRegister 0 1 0x55) { one with chain := [zeroChip, zeroChip] } 0 1 = some 0x55 := by decide
/-- R196, too many: N = 3 before two chips; slot 2's word falls off the end, slot 1's reaches the far chip. -/
theorem test_too_many : (after (exec (.writeRegister 2 1 0x55) { three with chain := [zeroChip, zeroChip] })).map State.chain = some [zeroChip, zeroChip] ∧
    registerAfter (.writeRegister 1 1 0x55) { three with chain := [zeroChip, zeroChip] } 1 1 = some 0x55 := by decide

/-! ### Text state commands (section 2.4) -/

/-- The recompute table: RIGHT, "HI", N 2. -/
theorem test_setCharWidth : offsetAfter (.setCharWidth 7) { withText [0x48, 0x49] 1 two with alignmentMode := .right } = some (-2) := by decide
theorem test_setTextAlignment : offsetAfter (.setTextAlignment .rightEnd) (withText [0x48, 0x49] 1 two) = some (-12) ∧
    offsetAfter (.setTextAlignment .leftEnd) (withText [0x48, 0x49] 1 two) = some 16 := by decide
theorem test_setText : offsetAfter (.setText [0x41, 0x42, 0x43]) { two with alignmentMode := .right } = some 2 ∧
    cursorAfter (.setText [0x41, 0x42, 0x43]) { two with scrollCursor := 7 } = some 1 := by decide
theorem test_setNextText : (after (exec (.setNextText [0x48, 0x49]) one)).map State.pendingNextText = some [0x48, 0x49] := by decide
theorem test_setRotate : (after (exec (.setRotate true) { one with rotationEnabled := true })).map State.rotationEnabled = some true := by decide
/-- "AB", W 6 (m 7): 6 goes to 0; −3 climbs to −2. -/
theorem test_scrollTextRight : cursorAfter .scrollTextRight (withText [0x41, 0x42] 6 one) = some 0 ∧
    cursorAfter .scrollTextRight (withText [0x41, 0x42] (-3) one) = some (-2) := by decide
/-- "A", W 2 (m −3): 2 goes to 0; "A", W 5 is refused (U2). -/
theorem test_scrollTextRight_divisor : cursorAfter .scrollTextRight { withText [0x41] 2 one with charWidth := 2 } = some 0 ∧
    refusal (exec .scrollTextRight { withText [0x41] 2 one with charWidth := 5 }) = some .zeroDivisor := by decide
/-- "AB", W 6 (m 20): −19 goes to 0, 25 to 4. -/
theorem test_scrollTextLeft : cursorAfter .scrollTextLeft (withText [0x41, 0x42] (-19) one) = some 0 ∧
    cursorAfter .scrollTextLeft (withText [0x41, 0x42] 25 one) = some 4 := by decide
/-- R201: a text staged before the first call swaps at once; RIGHT, "A", W 6, N 1 gives offset −2 (P4). -/
theorem test_scrollTextLeft_swap :
    let s := { withText [0x41, 0x42] 1 one with pendingNextText := [0x41], alignmentMode := .right, alignmentOffset := 4 }
    (after (exec .scrollTextLeft s)).map State.currentText = some [0x41] ∧ offsetAfter .scrollTextLeft s = some (-2) := by decide
/-- "AB", W 6: −4 turns to −3, 1 goes to 0. -/
theorem test_oscillateText : cursorAfter .oscillateText (withText [0x41, 0x42] (-4) one) = some (-3) ∧
    cursorAfter .oscillateText (withText [0x41, 0x42] 1 one) = some 0 := by decide
/-- From (5, +1): the right test holds, the direction becomes −1. -/
theorem test_oscillateText_right :
    (after (exec .oscillateText { withText [0x41, 0x42] 5 one with oscillationDirection := .plus })).map State.oscillationDirection = some .minus := by decide

/-! ### Render commands (vectors D6v, D8v, D13v, D18v) -/

theorem test_drawText : fbAfter .drawText (withText [0x41, 0x42] (-4) one) = some [0x7E, 0, 0x7F, 0x49, 0x49, 0x49, 0x36, 0] := by decide
theorem test_drawText_rotated : fbAfter .drawText { withText [0x41] 0 one with rotationEnabled := true } =
    some [0x70, 0x88, 0x88, 0x88, 0xF8, 0x88, 0x88, 0] := by decide
theorem test_setCustomChar : fbAfter (.setCustomChar (-2) 4 [0x11, 0x22, 0x33, 0x44]) one = some [0x33, 0x44, 0, 0, 0, 0, 0, 0] := by decide
theorem test_setCustomChar_rotated :
    fbAfter (.setCustomChar 0 1 [0x81]) { machine 1 [15, 15, 15, 15, 15, 15, 15, 15] with rotationEnabled := true } =
      some [0x8F, 15, 15, 15, 15, 15, 15, 0x8F] := by decide

/-! ### Serial words at a chip (20_memory.md R68) -/

theorem test_wNoop : registerAfter .wNoop two 0 1 = some 0 := by decide
theorem test_wRow1 : registerAfter (.wRow1 0x7E) two 0 1 = some 0x7E := by decide
theorem test_wRow2 : registerAfter (.wRow2 0x81) two 0 2 = some 0x81 := by decide
theorem test_wRow3 : registerAfter (.wRow3 4) two 0 3 = some 4 := by decide
theorem test_wRow4 : registerAfter (.wRow4 8) two 0 4 = some 8 := by decide
theorem test_wRow5 : registerAfter (.wRow5 16) two 0 5 = some 16 := by decide
theorem test_wRow6 : registerAfter (.wRow6 32) two 0 6 = some 32 := by decide
theorem test_wRow7 : registerAfter (.wRow7 64) two 0 7 = some 64 := by decide
theorem test_wRow8 : registerAfter (.wRow8 255) two 0 8 = some 255 := by decide
theorem test_wDecodeMode : registerAfter (.wDecodeMode 3) two 0 9 = some 3 := by decide
theorem test_wIntensity : registerAfter (.wIntensity 15) two 0 0x0A = some 15 := by decide
theorem test_wScanLimit : registerAfter (.wScanLimit 7) two 0 0x0B = some 7 := by decide
theorem test_wShutdown : registerAfter (.wShutdown 1) { two with actingDevice := 1 } 1 0x0C = some 1 := by decide
theorem test_wDisplayTest : registerAfter (.wDisplayTest 1) two 0 0x0F = some 1 := by decide
theorem test_word_at_no_device : exec (.wRow1 1) { two with actingDevice := 2 } = .fault .noSuchDevice := rfl

/-! ### The step -/

/-- From reset, the very next step runs the word placed (SET_COLUMN 3, 0x7E). -/
theorem test_step_command : (after (step (State.reset.withFetchWord 40 0x120003007E))).map State.fb = some [(3, 0x7E)] := by decide
theorem test_step_word : ((after (step (State.reset.withFetchWord 16 0x0B07))).bind fun t => t.chain[0]?.map Chip.scanLimit) = some 7 := by decide
theorem test_step_reserved : (after (step (one.withFetchWord 40 0x1300000000))).map State.inbox = some [] := by decide
/-- R204: a chip that lost power; the others and the framebuffer stay, and no such chip exists past the end. -/
theorem test_step_powerLoss :
    ((after (step { two with inbox := [.chipPowerLoss 1] })).bind fun t => t.chain[0]?) = some zeroChip ∧
    step { two with inbox := [.chipPowerLoss 2] } = .fault .noSuchDevice := ⟨by decide, rfl⟩
theorem test_step_idle : step one = .next one := rfl

/-! ### Witnesses: for every statement with hypotheses, a state and operands that meet all of them, for each clause -/

/-- DecodeInvertsEncode: both ends of field a, a payload. -/
theorem witness_wellFormed : Instr.wellFormed (.setCustomChar (-32768) 255 [1, 2]) = true ∧ Instr.wellFormed (.setColumn 32767 0) = true ∧
    Instr.wellFormed (.wRow8 255) = true := by decide

/-- HeaderFieldsAreTheOperands, SetNextTextStagesItsPayload: each value of the mode bits, and the longest payload. -/
theorem witness_headerFields : (4#8).toNat % 4 = 0 ∧ (1#8).toNat % 4 = 1 ∧ (2#8).toNat % 4 = 2 ∧ (255#8).toNat % 4 = 3 ∧
    (List.replicate 65535 (0 : Byte)).length < 65536 := ⟨by decide, by decide, by decide, by decide, by simp only [List.length_replicate]; norm_num⟩

/-- DecodedInstructionsAreWellFormed. -/
theorem witness_decoded : decode (.command 0x1180000700 []) = .instr (.setPixel (-32768) 7) := by decide

/-- ReservedOpcodeIsASilentNoOp: the opcodes beside the assigned ones. -/
theorem witness_reserved :
    ([0x0F00000000, 0x1300000000, 0x2500000000, 0x3800000000, 0x4200000000, 0xFF00000000] : List Header).map (fun h => (opField h).toNat) =
      [0x0F, 0x13, 0x25, 0x38, 0x42, 0xFF] ∧
    (∀ op ∈ [0x0F, 0x13, 0x25, 0x38, 0x42, 0xFF],
      op ∉ [0x10, 0x11, 0x12, 0x20, 0x21, 0x22, 0x23, 0x24, 0x30, 0x31, 0x32, 0x33, 0x34, 0x35, 0x36, 0x37, 0x40, 0x41]) ∧
    { one with inbox := [.command 0x1300000000 []] }.inbox = .command 0x1300000000 [] :: [] := ⟨by decide, by simp, rfl⟩

/-- StepRunsTheDecodedInstruction: each of the three clauses. -/
theorem witness_step : (one.withFetchWord 40 0x1000000000).inbox = .command 0x1000000000 [] :: [] ∧
    decode (.command 0x1000000000 []) = .instr .clear ∧
    { one with inbox := [.chipWord 0 0x0B07] }.inbox = .chipWord 0 0x0B07 :: [] ∧ decode (.word 0x0B07) = .instr (.wScanLimit 7) ∧
    one.inbox = [] := by decide

/-- EveryStepKeepsTheInvariant, AlignmentOffsetIsNeverStale: a state with the invariant, in which something was sent. -/
theorem witness_inv : State.Inv { two with tx := [.selAssert, .word 0, .word 1, .selDeassert], inbox := [.command 0x1000000000 []] } where
  devices  := by decide
  fbForm   := by decide
  fbRange  := by decide
  fontForm := by decide
  textLen  := by decide
  nextLen  := by decide
  offset   := rfl
  chips    := rfl
  trace    := by decide
  idleOpen := fun _ => rfl
  idleSent := fun _ => rfl

/-- EveryStepKeepsTheInvariant, ConstructionParametersNeverChange: a step that answers a next state. -/
theorem witness_step_next :
    ∃ t, step { two with tx := [.selAssert, .word 0, .word 1, .selDeassert], inbox := [.command 0x1000000000 []] } = .next t := ⟨_, rfl⟩

/-- ConstructionMeetsTheInvariant: the least and the greatest N. -/
theorem witness_devices : (1 ≤ 1 ∧ 1 ≤ 4095) ∧ (1 ≤ 4095 ∧ 4095 ≤ 4095) := by decide

/-- NoCommandFaults, CommandsCompleteExactlyUnderTheirPreconditions: a command in a state that meets its precondition, and one that
does not; every precondition at its boundary. -/
theorem witness_preconditions :
    isCommand .commit = true ∧ (preconditionHolds (.setPixel 15 0) two ∧ ¬ preconditionHolds (.setPixel 16 0) two) ∧
    (preconditionHolds .scrollTextRight (withText [0x41] 1 two) ∧
      ¬ preconditionHolds .scrollTextRight { withText [0x41] 1 two with charWidth := 5 } ∧ ¬ preconditionHolds .scrollTextRight two) ∧
    (preconditionHolds .scrollTextLeft (withText [0x41] 1 two) ∧ ¬ preconditionHolds .scrollTextLeft two) ∧
    (preconditionHolds (.writeRegister 1 0 0) two ∧ ¬ preconditionHolds (.writeRegister 2 0 0) two ∧
      ¬ preconditionHolds (.writeRegister (-1) 0 0) two) ∧
    (preconditionHolds .commit two ∧ ¬ preconditionHolds .commit { two with busOpen := false }) ∧
    (preconditionHolds .drawText { withText [0x41] 1 two with charWidth := 8 } ∧
      ¬ preconditionHolds .drawText { withText [0x41] 1 two with charWidth := 9 }) ∧
    (preconditionHolds (.setCustomChar 0 1 [1]) two ∧ ¬ preconditionHolds (.setCustomChar 0 2 [1]) two) := by
  unfold preconditionHolds; decide

/-- CommandsWriteOnlyTheirState: every element of the state is changed by some command. -/
theorem witness_changes :
    isCommand (.setColumn 0 1) = true ∧
    fbAfter (.setColumn 0 1) one ≠ some (one.fb.map Prod.snd) ∧
    (after (exec (.setText [0x41]) one)).map State.currentText ≠ some one.currentText ∧
    (after (exec (.setNextText [0x41]) one)).map State.pendingNextText ≠ some one.pendingNextText ∧
    (after (exec (.setCharWidth 7) one)).map State.charWidth ≠ some one.charWidth ∧
    cursorAfter .scrollTextLeft (withText [0x41] 1 one) ≠ some 1 ∧
    (after (exec (.setTextAlignment .right) one)).map State.alignmentMode ≠ some one.alignmentMode ∧
    offsetAfter (.setTextAlignment .right) one ≠ some one.alignmentOffset ∧
    (after (exec (.setRotate true) one)).map State.rotationEnabled ≠ some one.rotationEnabled ∧
    (after (exec .oscillateText (withText [0x41, 0x42] (-4) one))).map State.oscillationDirection ≠ some one.oscillationDirection ∧
    (after (exec .initializeChain { one with busOpen := false })).map State.busOpen ≠ some false ∧
    txAfter (.writeRegister 0 1 1) one ≠ some one.tx := by decide

/-- SetPixelSetsOneBitOfOneColumn, SetColumnOverwritesOrDrops, FramebufferCommandLaws (b): both ends of the range and past them. -/
theorem witness_columns : (0 ≤ (0 : Int) ∧ (0 : Int) < 8 * (two.numDevices : Int)) ∧ (0 ≤ (15 : Int) ∧ (15 : Int) < 8 * (two.numDevices : Int)) ∧
    8 * (two.numDevices : Int) ≤ 16 ∧ (-1 : Int) < 0 := by decide

/-- FramebufferCommandLaws, RepeatingASetterChangesNothing: canonical form, two columns, each setter answering a next state. -/
theorem witness_wf : Memory.wf two.fb = true ∧ (0 : Int) ≠ 15 := by decide

theorem witness_setters : (∃ t, exec .clear two = .next t) ∧ (∃ t, exec (.setColumn 16 1) two = .next t) ∧
    (∃ t, exec (.setPixel 15 7) two = .next t) ∧ (∃ t, exec (.setRotate true) two = .next t) ∧ (∃ t, exec (.setCharWidth 255) two = .next t) ∧
    (∃ t, exec (.setTextAlignment .rightEnd) two = .next t) ∧ ∃ t, exec (.setNextText []) two = .next t :=
  ⟨⟨_, rfl⟩, ⟨_, rfl⟩, ⟨_, rfl⟩, ⟨_, rfl⟩, ⟨_, rfl⟩, ⟨_, rfl⟩, ⟨_, rfl⟩⟩

/-- The statements about transmitting commands: the bus open, the first and the last device, devices past either end, and the bus
closed (TransmittingNeedsAnOpenBus). -/
theorem witness_bus : two.busOpen = true ∧ 0 < two.numDevices ∧ 1 < two.numDevices ∧ 1 ≤ one.numDevices ∧ (-1 : Int) < 0 ∧
    (two.numDevices : Int) ≤ 2 ∧ { two with busOpen := false }.busOpen = false := by decide

/-- TransmittingCommandsAppendTheStatedNumberOfEvents, WriteRegisterReachesItsTargetAlone, WriteRegisterAllReachesEveryDevice: the
commands complete. -/
theorem witness_transmits : (∃ t, exec (.writeRegister 1 0x0A 15) two = .next t) ∧ (∃ t, exec (.writeRegisterAll 0x0A 15) two = .next t) ∧
    (∃ t, exec (.setIntensity 200) two = .next t) ∧ (∃ t, exec .initializeChain two = .next t) ∧ ∃ t, exec .commit two = .next t :=
  ⟨⟨_, rfl⟩, ⟨_, rfl⟩, ⟨_, rfl⟩, ⟨_, rfl⟩, ⟨_, rfl⟩⟩

/-- AFrameGivesEachDeviceTheWordOfItsSlot, CommitLoadsTheRowRegisters and the statements about one chip: as many chips as devices, one
word per device, devices 0 and N−1, a zero word, mapped addresses (the intensity register with 15), and two different devices. -/
theorem witness_chain : two.chain.length = two.numDevices ∧ two.busOpen = true ∧ 0 < two.numDevices ∧ 1 < two.numDevices ∧ ([0x0101, 0] : List SerialWord).length = two.numDevices ∧
    two.chain[0]? = some zeroChip ∧ two.chain[1]? = some zeroChip ∧ ([0x0101, 0] : List SerialWord)[0]? = some 0x0101 ∧
    ([0x0101, 0] : List SerialWord)[1]? = some 0 ∧
    (chipRegister zeroChip 0x01).isSome = true ∧ (chipRegister zeroChip 0x08).isSome = true ∧ (chipRegister zeroChip 0x0A).isSome = true ∧
    (chipRegister zeroChip 0x0F).isSome = true ∧ (15#8).toNat ≤ 15 ∧ 0 ≠ 1 := by decide

/-- SerialWordsStoreTheirRegister, NoOpWordChangesNoRegister, IntensityAboveFifteenLeavesTheOtherRegisters, SerialWordsTouchOneChip: an
acting device of the chain and the first past it, intensity data 15 and 16. -/
theorem witness_words : isCommand (.wRow1 0) = false ∧ two.actingDevice < two.chain.length ∧ two.chain[two.actingDevice]? = some zeroChip ∧
    two.chain.length ≤ { two with actingDevice := 2 }.actingDevice ∧ (15#8).toNat ≤ 15 ∧ 15 < (16#8).toNat := by decide

/-- UnmappedWordTouchesOneChip. -/
theorem witness_unmapped : { two with inbox := [.chipWord 1 0x0D00] }.inbox = .chipWord 1 0x0D00 :: [] ∧
    decode (.word 0x0D00) = .unmapped 0x0D00 ∧ 1 < two.chain.length := by decide

/-- RemainderTruncatesTowardZero: divisors of both signs next to 0, a dividend that is not negative. -/
theorem witness_divisors : (1 : Int) ≠ 0 ∧ (-1 : Int) ≠ 0 ∧ (0 : Int) ≤ 7 ∧ (0 : Int) < 3 := by decide

/-- The examples of 00_scope.md R11. -/
theorem test_trem : trem 7 3 = 1 ∧ trem (-7) 3 = -1 ∧ trem 7 (-3) = 1 ∧ trem (-7) (-3) = -1 ∧ trem (-14) 14 = 0 ∧ trem (-15) 14 = -1 ∧
    trem 3 (-1) = 0 ∧ tdiv (-7) 3 = -2 := by decide

/-- SetNextTextStagesItsPayload: the staged text is changed by each of the two commands. -/
theorem witness_staged : (∃ t, exec (.setNextText [0x41]) one = .next t ∧ t.pendingNextText ≠ one.pendingNextText) ∧
    ∃ t, exec .scrollTextLeft { withText [0x41] 1 one with pendingNextText := [0x42] } = .next t ∧ t.pendingNextText ≠ [0x42] :=
  ⟨⟨_, rfl, by decide⟩, ⟨_, rfl, by decide⟩⟩

/-- ScrollTextRightStepsTheCursor, ScrollTextRightCyclesBelowItsDivisor: an empty text, divisor 0, divisors 7 and −1, cursors at each
clause's boundary. -/
theorem witness_scrollRight : one.currentText.length = 0 ∧
    (1 ≤ (withText [0x41] 0 one).currentText.length ∧ (1 * 5 - 5 : Int) = 0) ∧ (2 * 6 - 5 : Int) ≠ 0 ∧ (1 * 4 - 5 : Int) ≠ 0 ∧
    (0 ≤ (5 : Int) ∧ (5 : Int) + 1 < |2 * 6 - 5|) ∧ (6 : Int) + 1 = |2 * 6 - 5| ∧ (0 : Int) + 1 = |1 * 4 - 5| ∧
    ((-7 : Int) < 0 ∧ -|(2 * 6 - 5 : Int)| < -7 + 1) ∧ ((-1 : Int) < 0 ∧ -|(2 * 6 - 5 : Int)| < -1 + 1) := by decide

/-- ScrollTextLeftStepsAndSwaps: an empty text; cursor not 0; cursor 0 with and without a staged text (m = 20). -/
theorem witness_scrollLeft : one.currentText.length = 0 ∧ 1 ≤ (withText [0x41, 0x42] 0 one).currentText.length ∧
    ((0 : Int) - 1).tmod (2 * 6 + 8 * 1) ≠ 0 ∧ ((1 : Int) - 1).tmod (2 * 6 + 8 * 1) = 0 ∧ ((-19 : Int) - 1).tmod (2 * 6 + 8 * 1) = 0 ∧
    one.pendingNextText = [] ∧ { one with pendingNextText := [0x41] }.pendingNextText ≠ [] := by decide

/-- ScrollTextLeftReturnsToZeroOncePerCycle, AStagedTextSwapsAtTheFirstScrollAfterSetText: cursor 0, the last call before the cycle ends,
a text staged or not. -/
theorem witness_cycle : 1 ≤ one.numDevices ∧ 1 ≤ (withText [0x41] 0 one).currentText.length ∧ (withText [0x41] 0 one).scrollCursor = 0 ∧
    13 < 1 * 6 + 8 * 1 ∧ (withText [0x41] 0 one).pendingNextText = [] ∧
    { withText [0x41] 0 one with pendingNextText := [0x42] }.pendingNextText ≠ [] ∧ ([0x41] : List Byte) ≠ [] := by decide

/-- OscillateTextBounces, OscillationOfAFittingTextNeverMoves, OscillationStaysBetweenItsExtremes: a text that just fits, one that does
not, and cursors at both extremes. -/
theorem witness_oscillate : (1 * 8 : Int) ≤ 8 * 1 ∧ (8 * 1 : Int) < 3 * 3 ∧ 1 * 8 ≤ 8 * one.numDevices ∧
    (8 * 1 - 2 * 6 : Int) < 0 ∧ (8 * 1 - 2 * 6 : Int) ≤ -4 ∧ (-4 : Int) ≤ 0 ∧ (8 * 1 - 2 * 6 : Int) ≤ 0 := by decide

/-- AlignmentOffsetIsNeverStale: a fresh state and an instruction that answers a next state. -/
theorem witness_fresh : offsetFresh two ∧ ∃ t, exec (.setTextAlignment .right) two = .next t := ⟨rfl, _, rfl⟩

/-- CustomCharOverwritesItsColumns, RotatedCustomCharSetsItsPixels: rotation off and on, a bitmap just long enough, its last column at
the last column of the display, columns left and right of it and past the display, and a bitmap too short. -/
theorem witness_customChar : one.rotationEnabled = false ∧ { one with rotationEnabled := true }.rotationEnabled = true ∧
    (2#8).toNat ≤ ([0x11, 0x22] : List Byte).length ∧ (1 < (2#8).toNat ∧ ([0x11, 0x22] : List Byte)[1]? = some 0x22 ∧ ((7 : Nat) : Int) = 6 + 1 ∧
      7 < 8 * one.numDevices) ∧
    ((5 : Nat) : Int) < 6 ∧ (6 + 2 : Int) ≤ (8 : Nat) ∧ 8 * one.numDevices ≤ 8 ∧ ([0x11] : List Byte).length < (2#8).toNat := by decide

/-- DrawTextPlacesEveryGlyphColumn, RotatedDrawTextSetsItsPixels, DrawTextOfNothingDrawsNothing: no text, W = 8, W = 0, W = 9 with a
text; the last glyph column that lands in range; a column no glyph column lands on. -/
theorem witness_drawText : one.currentText = [] ∧ ({ withText [0x41] 0 one with charWidth := 8 }.charWidth.toNat ≤ 8) ∧
    { one with charWidth := 0 }.charWidth = 0 ∧
    ((withText [0x41] 0 one).currentText ≠ [] ∧ 8 < { withText [0x41] 0 one with charWidth := 9 }.charWidth.toNat) ∧
    ((withText [0x41, 0x42] 0 one).currentText[1]? = some 0x42 ∧ 1 < (withText [0x41, 0x42] 0 one).charWidth.toNat ∧
      ((7 : Nat) : Int) = ((1 : Nat) : Int) * ((6 : Nat) : Int) + ((1 : Nat) : Int) + 0 + 0 ∧ 7 < 8 * one.numDevices) ∧ 8 * one.numDevices ≤ 8 := by decide

/-- RotationIsAQuarterTurn: 95_test_vectors.md S8, N = 2, five columns at x = 9 in device 1; and the widest bitmap. -/
theorem witness_quarterTurn : (∀ c, c < 8 * two.numDevices → readCell two.fb c = some 0) ∧ 1 < two.numDevices ∧
    (5#8).toNat ≤ ([0x7F, 0x49, 0x49, 0x49, 0x36] : List Byte).length ∧ ((8 * 1 : Int) ≤ 9 ∧ 9 + ((5 : Nat) : Int) ≤ 8 * 1 + 8) ∧
    ((8 * 1 : Int) ≤ 8 ∧ 8 + ((8 : Nat) : Int) ≤ 8 * 1 + 8) ∧
    ((withText [0x41] 10 two).currentText = [0x41] ∧ (withText [0x41] 10 two).charWidth.toNat ≤ 8 ∧
      (8 * 1 : Int) ≤ (withText [0x41] 10 two).scrollCursor + (withText [0x41] 10 two).alignmentOffset ∧
      (withText [0x41] 10 two).scrollCursor + (withText [0x41] 10 two).alignmentOffset + (withText [0x41] 10 two).charWidth.toNat ≤ 8 * 1 + 8) := by decide

/-- AMiscountedChainReceivesStaleWords: N = 1 before two chips, and a step that answers a next state. -/
theorem witness_miscounted : let s := { one with chain := [{ zeroChip with stage := 0x0277 }, zeroChip] }
    s.busOpen = true ∧ 0 < s.numDevices ∧ s.chain[0 + s.numDevices]? = some zeroChip ∧
      s.chain[0]? = some { zeroChip with stage := 0x0277 } ∧ step s = .next s := ⟨rfl, by decide, rfl, rfl, rfl⟩

/-- AChipThatLostPowerIsRestored: the last chip of the chain and the first place past it; a device whose chip is chained. -/
theorem witness_powerLoss : { two with inbox := [.chipPowerLoss 1] }.inbox = .chipPowerLoss 1 :: [] ∧ 1 < two.chain.length ∧
    { two with inbox := [.chipPowerLoss 2] }.inbox = .chipPowerLoss 2 :: [] ∧ two.chain.length ≤ 2 ∧ 1 < two.numDevices ∧
    ((after (execAll [.initializeChain, .commit] two)).bind fun t => t.chain[1]?).isSome = true := by decide

end Sys2Proof.Tests
end

section
/-! PROOFS. Truncating division (00_scope.md R11), on the library's `Int.tmod`. -/

namespace Sys2Proof.Machine

/-- The bridge to the library: the model's remainder, defined from `tdiv`, is `Int.tmod`. -/
theorem trem_eq_tmod (a b : Int) : trem a b = a.tmod b := (Int.tmod_def a b).symm

/-- On a dividend that is not negative, `tdiv` is floor division, whatever the divisor's sign. -/
theorem tdiv_eq_ediv_of_nonneg {a : Int} (b : Int) (ha : 0 ≤ a) : tdiv a b = a / b := Int.tdiv_eq_ediv_of_nonneg ha

theorem trem_eq_emod_of_nonneg {a : Int} (b : Int) (ha : 0 ≤ a) : trem a b = a % b := by
  rw [trem_eq_tmod, Int.tmod_eq_emod_of_nonneg ha]

theorem trem_neg_right (a b : Int) : trem a (-b) = trem a b := by
  rw [trem_eq_tmod, trem_eq_tmod, Int.tmod_neg]

theorem abs_trem_lt (a : Int) {b : Int} (hb : b ≠ 0) : |trem a b| < |b| := by
  have hlt : a.natAbs % b.natAbs < b.natAbs := Nat.mod_lt _ (Int.natAbs_pos.mpr hb)
  rw [trem_eq_tmod, Int.abs_eq_natAbs, Int.abs_eq_natAbs, Int.natAbs_tmod]
  exact_mod_cast hlt

/-- A remainder other than 0 has the dividend's sign. -/
theorem trem_eq_zero_or_sign_eq (a b : Int) : trem a b = 0 ∨ (trem a b).sign = a.sign := by
  rw [trem_eq_tmod]
  by_cases hdvd : b ∣ a
  · exact .inl (Int.tmod_eq_zero_of_dvd hdvd)
  · exact .inr (by rw [Int.sign_tmod, if_neg hdvd])

/-- The quotient rounds toward zero: the multiple of the divisor it stands for is no further from 0 than the dividend. -/
theorem abs_mul_tdiv_le (a b : Int) : |b * tdiv a b| ≤ |a| := by
  rw [Int.abs_eq_natAbs, Int.abs_eq_natAbs, Int.natAbs_mul, tdiv, Int.natAbs_tdiv]
  exact_mod_cast Nat.mul_div_le a.natAbs b.natAbs

/-- Settles O37: each conjunct is one of the lemmas above. -/
theorem remainderTruncatesTowardZero : Obligations.RemainderTruncatesTowardZero := by
  intro a b hb
  have hsign : trem a b = 0 ∨ (0 < trem a b ↔ 0 < a) ∧ (trem a b < 0 ↔ a < 0) :=
    (trem_eq_zero_or_sign_eq a b).imp_right fun h => by
      rw [← Int.sign_eq_one_iff_pos, ← Int.sign_eq_neg_one_iff_neg, h]
      exact ⟨Int.sign_eq_one_iff_pos, Int.sign_eq_neg_one_iff_neg⟩
  exact ⟨fun ha _ => ⟨tdiv_eq_ediv_of_nonneg b ha, trem_eq_emod_of_nonneg b ha⟩, rfl, abs_trem_lt a hb, hsign,
    abs_mul_tdiv_le a b, trem_neg_right a b⟩

end Sys2Proof.Machine
end

section
/-! PROOFS. What a step takes from the inbox, and what it runs (00_scope.md R13, R14; 20_memory.md R63, R67). -/

namespace Sys2Proof.Machine

section
variable {s : State} {rest : List Input}

/-! ### What `fetch` answers, by the oldest input -/

theorem fetch_of_inbox_nil (hs : s.inbox = []) : fetch s = .idle := by
  simp only [fetch, hs]

theorem fetch_of_inbox_command {h : Header} {p : List Byte} (hs : s.inbox = .command h p :: rest) :
    fetch s = .packet (.command h p) (takeInput rest s) := by
  simp only [fetch, hs]

theorem fetch_of_inbox_chipWord {d : Nat} {w : SerialWord} (hs : s.inbox = .chipWord d w :: rest) :
    fetch s = .packet (.word w) { takeInput rest s with actingDevice := d } := by
  simp only [fetch, hs]

/-! ### What `step` does with what was fetched -/

theorem step_of_fetch_idle (hf : fetch s = .idle) : step s = .next s := by
  simp only [step, hf]

theorem step_of_fetch_instr {p : Packet} {t : State} {i : Instr} (hf : fetch s = .packet p t) (hd : decode p = .instr i) :
    step s = exec i t := by
  simp only [step, hf, hd]

end

/-- Settles O7: a command, a serial word and an empty inbox are the three cases of `fetch` the statement speaks of. -/
theorem stepRunsTheDecodedInstruction : Obligations.StepRunsTheDecodedInstruction := by
  refine ⟨?command, ?serialWord, ?idle⟩
  case command =>
    intro s h p rest i hs hd
    exact step_of_fetch_instr (fetch_of_inbox_command hs) hd
  case serialWord =>
    intro s d w rest i hs hd
    exact step_of_fetch_instr (fetch_of_inbox_chipWord hs) hd
  case idle =>
    intro s hs
    exact step_of_fetch_idle (fetch_of_inbox_nil hs)

end Sys2Proof.Machine
end

section
/-! PROOFS. What completing an instruction, and a step, can do to the state, said once (10_state.md R42): the statements about the
state that no instruction or step breaks are read off it. -/

namespace Sys2Proof.Machine

/-! ### What completing an instruction can do -/

/-- The commands that may change FB, the row of the access matrix (10_state.md R42). -/
def WritesFramebuffer (i : Instr) : Prop :=
  i = .clear ∨ (∃ c r, i = .setPixel c r) ∨ (∃ c v, i = .setColumn c v) ∨ i = .drawText ∨ ∃ x w d, i = .setCustomChar x w d

/-- The commands that may change TX, SELECT and the chain, the row of the access matrix (10_state.md R42). -/
def UsesBus (i : Instr) : Prop :=
  i = .initializeChain ∨ (∃ d r v, i = .writeRegister d r v) ∨ (∃ r v, i = .writeRegisterAll r v) ∨
    (∃ l, i = .setIntensity l) ∨ i = .commit

/-- The states in which an instruction that completes can leave the state `s`, one constructor per kind of effect. Values that no
statement of the state's invariants depends on (a cursor, a direction, the bytes of a frame) are left open. -/
inductive ExecEffect (s : State) : Instr → State → Prop where
  /-- the framebuffer alone changes, and keeps its form (20_memory.md R51) -/
  | framebuffer {i : Instr} {t : State} (hi : WritesFramebuffer i) (same : SameButFb s t) (good : FbGood s → FbGood t) :
      ExecEffect s i t
  /-- frames of N words are sent (41_serial_transmit.md R120) -/
  | frames {i : Instr} {fs : List (List SerialWord)} (hi : UsesBus i) (hlen : ∀ w ∈ fs, w.length = s.numDevices) :
      ExecEffect s i (sendFrames fs s)
  /-- the select pulse, the bus open, then frames of N words (41_serial_transmit.md R125) -/
  | initializeChain {fs : List (List SerialWord)} (hlen : ∀ w ∈ fs, w.length = s.numDevices) :
      ExecEffect s .initializeChain (sendFrames fs { selectPulse s with busOpen := true })
  | setCharWidth (width : Byte) : ExecEffect s (.setCharWidth width) (recomputeOffset { s with charWidth := width })
  | setTextAlignment (mode : AlignmentMode) :
      ExecEffect s (.setTextAlignment mode) (recomputeOffset { s with alignmentMode := mode })
  | setText (text : List Byte) :
      ExecEffect s (.setText text) (recomputeOffset { s with currentText := text, scrollCursor := 1 })
  | setNextText (text : List Byte) : ExecEffect s (.setNextText text) { s with pendingNextText := text }
  | setRotate (enabled : Bool) : ExecEffect s (.setRotate enabled) { s with rotationEnabled := enabled }
  | scrollTextRight (cursor : Int) : ExecEffect s .scrollTextRight { s with scrollCursor := cursor }
  | scrollTextLeft (cursor : Int) : ExecEffect s .scrollTextLeft { s with scrollCursor := cursor }
  /-- SCROLL_TEXT_LEFT swaps the staged text in (42_text_state_ops.md R148) -/
  | scrollTextLeftSwap (cursor : Int) :
      ExecEffect s .scrollTextLeft
        (recomputeOffset { s with scrollCursor := cursor, currentText := s.pendingNextText, pendingNextText := [] })
  | oscillateText (direction : Direction) (cursor : Int) :
      ExecEffect s .oscillateText { s with oscillationDirection := direction, scrollCursor := cursor }
  /-- a serial word changes the chips and not their number (20_memory.md R68) -/
  | serialWord {i : Instr} {ch : List Chip} (hi : isCommand i = false) (hlen : ch.length = s.chain.length) :
      ExecEffect s i { s with chain := ch }

/-- Every row of format W16 is a word at the acting device (20_memory.md R67). -/
theorem exec_serialWord {i : Instr} (hi : isCommand i = false) : ∃ w, ∀ s, exec i s = chipReceive w s := by
  cases i with
  | wNoop | wRow1 | wRow2 | wRow3 | wRow4 | wRow5 | wRow6 | wRow7 | wRow8 | wDecodeMode | wIntensity | wScanLimit | wShutdown
  | wDisplayTest => exact ⟨_, fun _ => rfl⟩
  | _ => cases hi

section
variable {s t : State}

theorem execClear_effect (h : execClear s = .next t) : ExecEffect s .clear t := by
  cases h
  exact .framebuffer (.inl rfl) rfl fun hs => ⟨fillCells_wf _ _ hs.1, fillCells_below _ hs.2 le_rfl⟩

theorem execSetPixel_effect {col : Int} {row : Fin 8} (h : execSetPixel col row s = .next t) :
    ExecEffect s (.setPixel col row) t := by
  rw [execSetPixel] at h
  split at h <;> cases h
  rename_i hin
  have hcol : col.toNat < displayColumns s := by omega
  exact .framebuffer (.inr (.inl ⟨_, _, rfl⟩)) (sameButFb_setPixelAt _ _ _) fun hs => fbGood_setPixelAt _ hs hcol

theorem execSetColumn_effect {col : Int} {value : Byte} (h : execSetColumn col value s = .next t) :
    ExecEffect s (.setColumn col value) t := by
  cases h
  exact .framebuffer (.inr (.inr (.inl ⟨_, _, rfl⟩))) (sameButFb_setColumnAt _ _ _) (fbGood_setColumnAt _ _)

theorem execDrawText_effect (h : execDrawText s = .next t) : ExecEffect s .drawText t := by
  rw [execDrawText] at h
  split at h <;> cases h
  obtain ⟨u, hu, same⟩ := renderText_done 0 s.currentText s
  have good : FbGood s → FbGood (renderText 0 s.currentText s).state := fbGood_renderText _ _
  rw [hu] at good ⊢
  exact .framebuffer (.inr (.inr (.inr (.inl rfl)))) same good

theorem execSetCustomChar_effect {x : Int} {width : Byte} {data : List Byte} (h : execSetCustomChar x width data s = .next t) :
    ExecEffect s (.setCustomChar x width data) t := by
  rw [execSetCustomChar] at h
  split at h <;> cases h
  obtain ⟨u, hu, same⟩ := render_done x (data.take width.toNat) s
  have good : FbGood s → FbGood (render x (data.take width.toNat) s).state := fbGood_render _ _
  rw [hu] at good ⊢
  exact .framebuffer (.inr (.inr (.inr (.inr ⟨_, _, _, rfl⟩)))) same good

theorem length_of_mem_setupFrames {n d : Nat} {w : List SerialWord} (hw : w ∈ setupFrames n d) : w.length = n := by
  obtain ⟨_, -, rfl⟩ := List.mem_map.1 hw
  exact targetWords_length _ _ _

theorem execInitializeChain_effect (h : execInitializeChain s = .next t) : ExecEffect s .initializeChain t := by
  rw [execInitializeChain_eq] at h
  cases h
  refine .initializeChain fun w hw => ?_
  obtain ⟨d, -, hd⟩ := List.mem_flatMap.1 hw
  exact length_of_mem_setupFrames hd

theorem execWriteRegister_effect {device : Int} {register value : Byte} (h : execWriteRegister device register value s = .next t) :
    ExecEffect s (.writeRegister device register value) t := by
  rw [execWriteRegister] at h
  split at h
  · cases h
  · split at h <;> cases h
    rw [writeRegisterAt_eq]
    exact .frames (.inr (.inl ⟨_, _, _, rfl⟩)) (by simp)

/-- The common end of WRITE_REGISTER_ALL and SET_INTENSITY (41_serial_transmit.md R122, R123). -/
theorem writeRegisterEach_effect {i : Instr} (hi : UsesBus i) (register value : Byte) :
    ExecEffect s i (writeRegisterEach register value s) := by
  rw [writeRegisterEach_eq]
  exact .frames hi (by simp)

theorem execWriteRegisterAll_effect {register value : Byte} (h : execWriteRegisterAll register value s = .next t) :
    ExecEffect s (.writeRegisterAll register value) t := by
  rw [execWriteRegisterAll] at h
  split at h <;> cases h
  exact writeRegisterEach_effect (.inr (.inr (.inl ⟨_, _, rfl⟩))) _ _

theorem execSetIntensity_effect {level : Byte} (h : execSetIntensity level s = .next t) : ExecEffect s (.setIntensity level) t := by
  rw [execSetIntensity] at h
  split at h <;> cases h
  exact writeRegisterEach_effect (.inr (.inr (.inr (.inl ⟨_, rfl⟩)))) _ _

theorem execCommit_effect (h : execCommit s = .next t) : ExecEffect s .commit t := by
  cases hopen : s.busOpen with
  | false => rw [execCommit, if_pos hopen] at h; cases h
  | true =>
    rw [execCommit_eq hopen] at h
    cases h
    exact .frames (.inr (.inr (.inr (.inr rfl)))) (by simp)

theorem execScrollTextRight_effect (h : execScrollTextRight s = .next t) : ExecEffect s .scrollTextRight t := by
  rw [execScrollTextRight] at h
  split at h
  · cases h
  · split at h <;> cases h
    exact .scrollTextRight _

theorem execScrollTextLeft_effect (h : execScrollTextLeft s = .next t) : ExecEffect s .scrollTextLeft t := by
  rw [execScrollTextLeft] at h
  split at h <;> cases h
  rw [swapStagedText]
  split
  · exact .scrollTextLeftSwap _
  · exact .scrollTextLeft _

theorem execOscillateText_effect (h : execOscillateText s = .next t) : ExecEffect s .oscillateText t := by
  rw [execOscillateText] at h
  split at h <;> cases h
  · exact .oscillateText s.oscillationDirection s.scrollCursor
  · exact .oscillateText _ _

/-- An instruction that completes leaves the state as `ExecEffect` says. -/
theorem exec_effect {i : Instr} (h : exec i s = .next t) : ExecEffect s i t := by
  cases hi : isCommand i with
  | false =>
    obtain ⟨w, hw⟩ := exec_serialWord hi
    obtain ⟨ch, rfl, hlen, -⟩ := chipReceive_next ((hw s).symm.trans h)
    exact .serialWord hi hlen
  | true =>
    cases i with
    | clear => exact execClear_effect h
    | setPixel => exact execSetPixel_effect h
    | setColumn => exact execSetColumn_effect h
    | initializeChain => exact execInitializeChain_effect h
    | writeRegister => exact execWriteRegister_effect h
    | writeRegisterAll => exact execWriteRegisterAll_effect h
    | setIntensity => exact execSetIntensity_effect h
    | commit => exact execCommit_effect h
    | setCharWidth width => cases h; exact .setCharWidth width
    | setTextAlignment mode => cases h; exact .setTextAlignment mode
    | setText text => cases h; exact .setText text
    | setNextText text => cases h; exact .setNextText text
    | setRotate enabled => cases h; exact .setRotate enabled
    | scrollTextRight => exact execScrollTextRight_effect h
    | scrollTextLeft => exact execScrollTextLeft_effect h
    | oscillateText => exact execOscillateText_effect h
    | drawText => exact execDrawText_effect h
    | setCustomChar => exact execSetCustomChar_effect h
    | _ => cases hi

end

/-- States that differ in the framebuffer alone, as an update. -/
theorem SameButFb.exists_eq {s t : State} (h : SameButFb s t) : ∃ m, t = { s with fb := m } := ⟨_, h⟩

/-! ### What one instruction may change -/

/-- Settles O13: each kind of effect changes only elements whose row of the access matrix names its command. -/
theorem commandsWriteOnlyTheirState : Obligations.CommandsWriteOnlyTheirState := by
  intro i s t hc h
  cases exec_effect h with
  | framebuffer hi same =>
    obtain ⟨m, rfl⟩ := same.exists_eq
    simpa [WritesFramebuffer] using fun _ => hi
  | frames hi =>
    rw [sendFrames_eq]
    simpa [UsesBus] using fun _ => hi
  | initializeChain => simp [sendFrames_eq, selectPulse_eq]
  | serialWord hi => rw [hc] at hi; cases hi
  | setCharWidth | setTextAlignment | setText | setNextText | setRotate | scrollTextRight | scrollTextLeft | scrollTextLeftSwap
  | oscillateText => simp

theorem offsetFresh_recomputeOffset (s : State) : offsetFresh (recomputeOffset s) := rfl

/-- Settles O51: AO's inputs change only in updates that compute the offset anew; every other effect leaves them and the offset. -/
theorem alignmentOffsetIsNeverStale : Obligations.AlignmentOffsetIsNeverStale := by
  intro i s t hs h
  cases exec_effect h with
  | framebuffer _ same =>
    obtain ⟨m, rfl⟩ := same.exists_eq
    exact hs
  | frames => rw [sendFrames_eq]; exact hs
  | initializeChain => rw [sendFrames_eq]; exact hs
  | setNextText | setRotate | scrollTextRight | scrollTextLeft | oscillateText | serialWord => exact hs
  | setCharWidth | setTextAlignment | setText | scrollTextLeftSwap => exact offsetFresh_recomputeOffset _

/-- Settles O26: each of the four commands tests BUS_OPEN before anything else. -/
theorem transmittingNeedsAnOpenBus : Obligations.TransmittingNeedsAnOpenBus := by
  intro s hclosed
  exact ⟨fun _ _ _ => if_pos hclosed, fun _ _ => if_pos hclosed, fun _ => if_pos hclosed, if_pos hclosed⟩

/-- No instruction changes a construction parameter or the font: a command by the access matrix, a serial word because it changes
the chips alone. -/
theorem exec_construction {i : Instr} {s t : State} (h : exec i s = .next t) :
    t.numDevices = s.numDevices ∧ t.selectLine = s.selectLine ∧ t.font = s.font := by
  cases hi : isCommand i with
  | true =>
    obtain ⟨⟨hdevices, hline, hfont, -⟩, -⟩ := commandsWriteOnlyTheirState i s t hi h
    exact ⟨hdevices, hline, hfont⟩
  | false =>
    obtain ⟨w, hw⟩ := exec_serialWord hi
    obtain ⟨ch, rfl, -⟩ := chipReceive_next ((hw s).symm.trans h)
    exact ⟨rfl, rfl, rfl⟩

/-! ### What every step keeps -/

theorem decode_wellFormed {p : Packet} {i : Instr} (h : decode p = .instr i) : i.wellFormed = true := by
  cases p with
  | command hd pl => exact decodeCommand_answers hd pl i h
  | word w => exact decodeSerial_answers w i h

section
variable {s u : State} {p : Packet}

theorem step_of_fetch_powerLoss {d : Nat} (hf : fetch s = .powerLoss d u) : step s = losePower d u := by
  simp only [step, hf]

theorem step_of_fetch_reserved {op : Byte} (hf : fetch s = .packet p u) (hd : decode p = .reserved op) : step s = .next u := by
  simp only [step, hf, hd]

theorem step_of_fetch_unmapped {w : SerialWord} (hf : fetch s = .packet p u) (hd : decode p = .unmapped w) :
    step s = chipReceive w u := by
  simp only [step, hf, hd]

theorem step_of_fetch_payloadTooLong (hf : fetch s = .packet p u) (hd : decode p = .payloadTooLong) :
    step s = .refused .payloadTooLong := by
  simp only [step, hf, hd]

/-- Taking a packet changes the model's own fields alone. -/
theorem fetch_packet_frame (h : fetch s = .packet p u) :
    ∃ rest device draws, u = { s with inbox := rest, actingDevice := device, draws := draws } := by
  rw [fetch] at h
  split at h <;> cases h <;> exact ⟨_, _, _, rfl⟩

/-- Taking a loss of power changes the model's own fields alone. -/
theorem fetch_powerLoss_frame {d : Nat} (h : fetch s = .powerLoss d u) :
    ∃ rest device draws, u = { s with inbox := rest, actingDevice := device, draws := draws } := by
  rw [fetch] at h
  split at h <;> cases h
  exact ⟨_, _, _, rfl⟩

end

/-- The step's induction: a property that taking an input, a change of the chips and every well-formed instruction keep is one that
every step keeps. -/
theorem step_preserves {P : State → Prop}
    (hinput : ∀ s rest device draws, P s → P { s with inbox := rest, actingDevice := device, draws := draws })
    (hchips : ∀ s ch, ch.length = s.chain.length → P s → P { s with chain := ch })
    (hexec : ∀ i s t, i.wellFormed = true → P s → exec i s = .next t → P t)
    {s t : State} (hs : P s) (h : step s = .next t) : P t := by
  cases hf : fetch s with
  | idle =>
    rw [step_of_fetch_idle hf] at h
    cases h
    exact hs
  | powerLoss d u =>
    rw [step_of_fetch_powerLoss hf] at h
    obtain ⟨rest, device, draws, rfl⟩ := fetch_powerLoss_frame hf
    obtain ⟨ch, rfl, hlen, -⟩ := losePower_next h
    exact hchips _ ch hlen (hinput s rest device draws hs)
  | packet p u =>
    have hu : P u := by
      obtain ⟨rest, device, draws, rfl⟩ := fetch_packet_frame hf
      exact hinput s rest device draws hs
    cases hd : decode p with
    | instr i =>
      rw [step_of_fetch_instr hf hd] at h
      exact hexec i u t (decode_wellFormed hd) hu h
    | reserved op =>
      rw [step_of_fetch_reserved hf hd] at h
      cases h
      exact hu
    | unmapped w =>
      rw [step_of_fetch_unmapped hf hd] at h
      obtain ⟨ch, rfl, hlen, -⟩ := chipReceive_next h
      exact hchips u ch hlen hu
    | payloadTooLong =>
      rw [step_of_fetch_payloadTooLong hf hd] at h
      cases h

/-- Settles O14: the property is equality with the parameters of the first state. -/
theorem constructionParametersNeverChange : Obligations.ConstructionParametersNeverChange := by
  intro s t h
  refine step_preserves (P := fun u => u.numDevices = s.numDevices ∧ u.selectLine = s.selectLine ∧ u.font = s.font)
    (fun _ _ _ _ hu => hu) (fun _ _ _ hu => hu) ?_ ⟨rfl, rfl, rfl⟩ h
  rintro i u v - ⟨hdevices, hline, hfont⟩ hv
  obtain ⟨hdevices', hline', hfont'⟩ := exec_construction hv
  exact ⟨hdevices'.trans hdevices, hline'.trans hline, hfont'.trans hfont⟩

/-! ### The invariant -/

theorem inv_of_sameButFb {s t : State} (hs : s.Inv) (same : SameButFb s t) (good : FbGood t) : t.Inv := by
  obtain ⟨m, rfl⟩ := same.exists_eq
  exact { hs with fbForm := good.1, fbRange := good.2 }

/-- Frames of N words keep the trace whole and end with SELECT high. -/
theorem inv_sendFrames {s : State} {fs : List (List SerialWord)} (hs : s.Inv) (hlen : ∀ w ∈ fs, w.length = s.numDevices) :
    (sendFrames fs s).Inv := by
  rw [sendFrames_eq]
  have hselect : s.busOpen = true ∨ s.tx ++ fs.flatMap frameEvents ≠ [] → (if fs = [] then s.select else .high) = .high := by
    cases fs with
    | nil => simpa using fun h => h.elim hs.idleOpen hs.idleSent
    | cons w fs => exact fun _ => if_neg (List.cons_ne_nil w fs)
  exact { hs with
    chips := (framesChain_length _ _ _ _).trans hs.chips
    trace := framesOk_append hs.trace (framesOk_flatMap hlen)
    idleOpen := fun hopen => hselect (.inl hopen)
    idleSent := fun hsent => hselect (.inr hsent) }

/-- The select pulse is a frame of no word, and ends with SELECT high (41_serial_transmit.md R124). -/
theorem inv_selectPulse_open {s : State} (hs : s.Inv) : State.Inv { selectPulse s with busOpen := true } := by
  rw [selectPulse_eq]
  exact { hs with
    chips := by simpa using hs.chips
    trace := framesOk_append hs.trace (framesOk_frameEvents (w := []) (.inr rfl))
    idleOpen := fun _ => rfl
    idleSent := fun _ => rfl }

/-- Every well-formed instruction keeps the invariant; well-formed, because a text of a legal length is one an encoding can hold
(30_encoding.md R87). -/
theorem exec_preserves_inv {i : Instr} {s t : State} (hi : i.wellFormed = true) (hs : s.Inv) (h : exec i s = .next t) : t.Inv := by
  have hfresh : offsetFresh t := alignmentOffsetIsNeverStale i s t hs.offset h
  cases exec_effect h with
  | framebuffer _ same good => exact inv_of_sameButFb hs same (good ⟨hs.fbForm, hs.fbRange⟩)
  | frames _ hlen => exact inv_sendFrames hs hlen
  | initializeChain hlen => exact inv_sendFrames (inv_selectPulse_open hs) hlen
  | setText text => exact { hs with textLen := of_decide_eq_true hi, offset := hfresh }
  | setNextText text => exact { hs with nextLen := of_decide_eq_true hi }
  | scrollTextLeftSwap => exact { hs with textLen := hs.nextLen, nextLen := Nat.zero_lt_of_lt hs.nextLen, offset := hfresh }
  | serialWord _ hlen => exact { hs with chips := hlen.trans hs.chips }
  | setCharWidth | setTextAlignment | setRotate | scrollTextRight | scrollTextLeft | oscillateText =>
    exact { hs with offset := hfresh }

/-- Settles O8: every instruction the decoder answers keeps the invariant, and nothing else a step does touches it. -/
theorem everyStepKeepsTheInvariant : Obligations.EveryStepKeepsTheInvariant := fun _ _ =>
  step_preserves (fun _ _ _ _ hs => { hs with }) (fun _ _ hlen hs => { hs with chips := hlen.trans hs.chips })
    fun _ _ _ => exec_preserves_inv

end Sys2Proof.Machine
end

section
/-! PROOFS. What the host's writes leave in memory when they are repeated (20_memory.md R59). -/

namespace Sys2Proof.Machine

theorem fillCells_twice {m : Memory} (n : Nat) (v : Byte) (h : Memory.wf m = true) :
    fillCells n v (fillCells n v m) = fillCells n v m :=
  fillCells_same (fillCells_wf n v h) fun c hc => by rw [readCell_fillCells, if_pos hc]

theorem writeColumn_twice (c : Nat) (v w : Byte) (s : State) : writeColumn c w (writeColumn c v s) = writeColumn c w s := by
  simp only [writeColumn, writeCell_twice]

theorem setColumnAt_twice (c : Int) (v : Byte) (s : State) : setColumnAt c v (setColumnAt c v s) = setColumnAt c v s := by
  by_cases hin : columnInRange s c
  · have hwrite : setColumnAt c v s = writeColumn c.toNat v s := if_pos hin
    rw [hwrite]
    exact (if_pos hin).trans (writeColumn_twice _ _ _ _)
  · have hdrop : setColumnAt c v s = s := if_neg hin
    rw [hdrop, hdrop]

/-- A bit that is set stays set. -/
theorem setPixelAt_twice (c row : Nat) (s : State) : setPixelAt c row (setPixelAt c row s) = setPixelAt c row s := by
  simp only [setPixelAt, readColumn_writeColumn, if_pos, writeColumn_twice, BitVec.or_assoc, BitVec.or_self]

/-- Settles O19: a write to FB repeated is the same write, and the other setters do not read what they write. -/
theorem repeatingASetterChangesNothing : Obligations.RepeatingASetterChangesNothing := by
  rintro i s t hwf (rfl | ⟨c, v, rfl⟩ | ⟨c, r, rfl⟩ | ⟨b, rfl⟩ | ⟨w, rfl⟩ | ⟨m, rfl⟩ | ⟨x, rfl⟩) h
  · -- CLEAR
    cases h
    have hfill : fillCells (displayColumns s) 0 (fillCells (displayColumns s) 0 s.fb) = fillCells (displayColumns s) 0 s.fb :=
      fillCells_twice _ 0 hwf
    exact congrArg (fun m => Host.Outcome.next { s with fb := m }) hfill
  · -- SET_COLUMN
    cases h
    exact congrArg Host.Outcome.next (setColumnAt_twice c v s)
  · -- SET_PIXEL
    rw [exec_setPixel, execSetPixel] at h
    split at h <;> cases h
    rename_i hin
    exact (if_pos hin).trans (congrArg Host.Outcome.next (setPixelAt_twice _ _ _))
  all_goals
    cases h
    rfl

end Sys2Proof.Machine
end

section
/-! PROOFS. What a frame delivers to the chain (20_memory.md R66 to R69), and WRITE_REGISTER as the frame it sends (41_serial_transmit.md
R121). -/

namespace Sys2Proof.Machine

/-! ### A frame at the chain -/

@[simp] theorem txFrame_chain (w : List SerialWord) (s : State) :
    (txFrame w s).chain = frameChain s.draws s.tx.length w s.chain := by
  rw [txFrame_eq]

/-- A chip's registers do not depend on its stage of the shift register. -/
@[simp] theorem chipRegister_stage (c : Chip) (w : SerialWord) (a : Byte) : chipRegister { c with stage := w } a = chipRegister c a := rfl

/-- A chip that holds the zero word does nothing (20_memory.md R68). -/
@[simp] theorem latchChip_zeroWord (any c : Chip) : latchChip any { c with stage := 0 } = { c with stage := 0 } :=
  latchChip_noop regField_zero

/-- A zero word in its slot leaves a chip's registers as they were (20_memory.md R68). -/
theorem frameChain_noop {draw events : Nat} {w : List SerialWord} {ch : List Chip} {k : Nat} {c : Chip} (hc : ch[k]? = some c)
    (hw : w[k]? = some 0) : (frameChain draw events w ch)[k]? = some { c with stage := 0 } := by
  rw [frameChain_getElem? hc hw, latchChip_zeroWord]

/-- The stages after a frame: its words, slot 0 first, push the stages the chips held before toward the far end (20_memory.md R69). -/
theorem txFrame_stages (w : List SerialWord) (s : State) :
    (txFrame w s).chain.map Chip.stage = (w ++ s.chain.map Chip.stage).take s.chain.length := by
  refine List.ext_getElem? fun k => ?_
  rw [txFrame_chain, List.getElem?_map, frameChain_any, List.getElem?_take]
  by_cases hk : k < s.chain.length
  · have hheld : k < (w ++ s.chain.map Chip.stage).length := by
      rw [List.length_append, List.length_map]
      omega
    simp [hk, List.getElem?_eq_getElem hheld]
  · simp [hk]

/-- Settles O27: the frame's word for slot d is the one device d acts on, and acting on the no-op changes nothing. -/
theorem aFrameGivesEachDeviceTheWordOfItsSlot : Obligations.AFrameGivesEachDeviceTheWordOfItsSlot := by
  intro s w _
  rw [txFrame_chain]
  refine ⟨frameChain_length _ _ _ _, fun d c v hc hv => ⟨_, frameChain_getElem? hc hv, latchChip_stage _ _, ?_⟩⟩
  rintro rfl
  exact latchChip_zeroWord _ _

/-! ### WRITE_REGISTER -/

/-- WRITE_REGISTER to a device number completes exactly with the bus open and the device in range, and then it is its targeted frame. -/
theorem exec_writeRegister_eq_next_iff {d : Nat} {reg v : Byte} {s t : State} :
    exec (.writeRegister d reg v) s = .next t ↔
      s.busOpen = true ∧ d < s.numDevices ∧ t = txFrame (targetWords s.numDevices d (serialWord reg v)) s := by
  have hrange : deviceInRange s d ↔ d < s.numDevices := by simp [deviceInRange]
  rw [exec_writeRegister, execWriteRegister, Int.toNat_natCast, writeRegisterAt]
  cases hopen : s.busOpen with
  | false => simp
  | true => by_cases hd : d < s.numDevices <;> simp [hrange, hd, eq_comm]

/-- Settles O28: the target's slot holds the word that stores its register, every other slot the no-op. -/
theorem writeRegisterReachesItsTargetAlone : Obligations.WriteRegisterReachesItsTargetAlone := by
  intro s t d reg v h
  obtain ⟨-, hd, rfl⟩ := exec_writeRegister_eq_next_iff.1 h
  rw [txFrame_chain]
  refine ⟨fun c hc hmapped hintensity => ?target, fun k c hkd hk hc => ?other⟩
  case target =>
    have hslot : (targetWords s.numDevices d (serialWord reg v))[d]? = some (serialWord reg v) := by
      rw [targetWords_getElem? _ hd, if_pos rfl]
    exact ⟨_, frameChain_getElem? hc hslot, latchChip_stores _ { c with stage := serialWord reg v } rfl hmapped hintensity⟩
  case other =>
    have hslot : (targetWords s.numDevices d (serialWord reg v))[k]? = some 0 := by
      rw [targetWords_getElem? _ hk, if_neg hkd]
    exact frameChain_noop hc hslot

/-! ### A chain of any length -/

/-- No instruction changes how many chips are chained. -/
theorem exec_chain_length {i : Instr} {s t : State} (h : exec i s = .next t) : t.chain.length = s.chain.length := by
  cases exec_effect h with
  | framebuffer _ same =>
    obtain ⟨m, rfl⟩ := same.exists_eq
    rfl
  | frames => rw [sendFrames_eq, framesChain_length]
  | initializeChain => simp [sendFrames_eq, selectPulse_eq]
  | serialWord _ hlen => exact hlen
  | setCharWidth | setTextAlignment | setText | setNextText | setRotate | scrollTextRight | scrollTextLeft | scrollTextLeftSwap
  | oscillateText => rfl

/-- Settles O59: the stages after a frame say what a chip past slot N−1 holds; the count of chips is kept by the step's induction. -/
theorem aMiscountedChainReceivesStaleWords : Obligations.AMiscountedChainReceivesStaleWords := by
  refine ⟨fun s w => txFrame_stages w s, ?stale, ?count⟩
  case stale =>
    intro s d reg v k c near hopen hd hc hnear
    have hk : k + s.numDevices < s.chain.length := (List.getElem?_eq_some_iff.1 hc).1
    have hstage : ((txFrame (targetWords s.numDevices d (serialWord reg v)) s).chain.map Chip.stage)[k + s.numDevices]? =
        some near.stage := by
      rw [txFrame_stages, List.getElem?_take, if_pos hk, List.getElem?_append_right (by simp)]
      simp [hnear]
    rw [List.getElem?_map, Option.map_eq_some_iff] at hstage
    obtain ⟨c', hc', heq⟩ := hstage
    exact ⟨_, c', exec_writeRegister_eq_next_iff.2 ⟨hopen, hd, rfl⟩, hc', heq⟩
  case count =>
    intro s t h
    exact step_preserves (P := fun u => u.chain.length = s.chain.length) (fun _ _ _ _ hu => hu) (fun _ _ hlen hu => hlen.trans hu)
      (fun _ _ _ _ hu hv => (exec_chain_length hv).trans hu) rfl h

end Sys2Proof.Machine
end

section
/-! PROOFS. A serial word at one chip (20_memory.md R66 to R68): a W16 row run by itself, and a word outside the chip's map. -/

namespace Sys2Proof.Machine

/-! ### A word at the acting device -/

/-- Where the acting device has a chip, a word changes that chip alone. -/
theorem chipReceive_completes (w : SerialWord) {s : State} (h : s.actingDevice < s.chain.length) :
    ∃ ch, chipReceive w s = .next { s with chain := ch } ∧ ch.length = s.chain.length ∧
      ∀ k, k ≠ s.actingDevice → ch[k]? = s.chain[k]? := by
  have hnext := chipReceive_eq w (List.getElem?_eq_getElem h)
  exact ⟨_, hnext, List.length_set, fun k hk => List.getElem?_set_ne hk.symm⟩

/-- Past the end of the chain there is no chip to take the word (00_scope.md R16). -/
theorem chipReceive_fault (w : SerialWord) {s : State} (h : s.chain.length ≤ s.actingDevice) :
    chipReceive w s = .fault .noSuchDevice :=
  if_neg (Nat.not_lt.2 h)

/-- Settles O35: a W16 row is a word at the acting device. -/
theorem serialWordsTouchOneChip : Obligations.SerialWordsTouchOneChip := by
  intro i s hi
  obtain ⟨w, hw⟩ := exec_serialWord hi
  rw [hw]
  exact ⟨chipReceive_completes w, chipReceive_fault w⟩

/-- Settles O36: the step lets the device named by the input act on the word. -/
theorem unmappedWordTouchesOneChip : Obligations.UnmappedWordTouchesOneChip := by
  intro s d w rest hs hdecode hd
  rw [step_of_fetch_unmapped (fetch_of_inbox_chipWord hs) hdecode]
  exact chipReceive_completes w hd

/-! ### A word that stores a register -/

/-- The addresses of a chip's map, the rows first (60_exceptions.md R179). -/
theorem chipRegister_isSome (c : Chip) {a : Byte}
    (ha : a ∈ ([0x01, 0x02, 0x03, 0x04, 0x05, 0x06, 0x07, 0x08, 0x09, 0x0A, 0x0B, 0x0C, 0x0F] : List Byte)) :
    (chipRegister c a).isSome = true := by
  fin_cases ha <;> rfl

/-- An instruction whose encoding is a serial word is that word at the acting device (20_memory.md R67). -/
theorem exec_of_encode_word {i : Instr} {w : SerialWord} (h : encode i = .word w) (s : State) : exec i s = chipReceive w s := by
  cases i with
  | wNoop | wRow1 | wRow2 | wRow3 | wRow4 | wRow5 | wRow6 | wRow7 | wRow8 | wDecodeMode | wIntensity | wScanLimit | wShutdown
  | wDisplayTest => cases h; rfl
  | _ => cases h

/-- Settles O32: the row's encoding is the word that stores its register. -/
theorem serialWordsStoreTheirRegister : Obligations.SerialWordsStoreTheirRegister := by
  intro s c data i addr hc hi hintensity
  have hrow : encode i = .word (serialWord addr data) ∧ (chipRegister c addr).isSome = true ∧
      (addr = Config.regIntensity → i = .wIntensity data) := by
    fin_cases hi <;> exact ⟨rfl, chipRegister_isSome c (by decide), by simp +decide⟩
  obtain ⟨hencode, hmapped, hname⟩ := hrow
  obtain ⟨hstored, hothers⟩ :=
    latchChip_stores (unknownChip s.draws s.tx.length s.actingDevice) { c with stage := serialWord addr data } rfl
      hmapped fun h => hintensity (hname h)
  exact ⟨_, (exec_of_encode_word hencode s).trans (chipReceive_eq _ hc), hstored, latchChip_stage _ _, hothers⟩

/-! ### The intensity register -/

/-- A word for the intensity register: data above 15 leaves the register open (U4). -/
theorem latchChip_of_intensity (any : Chip) {c : Chip} (h : regField c.stage = Config.regIntensity) :
    latchChip any c = { c with intensity := if (dataField c.stage).toNat ≤ 15 then dataField c.stage else any.intensity } := by
  simp +decide [latchChip, h]

theorem chipRegister_intensity_other (c : Chip) (v : Byte) {a : Byte} (ha : a ≠ Config.regIntensity) :
    chipRegister { c with intensity := v } a = chipRegister c a := by
  simp only [chipRegister, if_neg ha]

/-- Settles O34: the word is one for the intensity register. -/
theorem intensityAboveFifteenLeavesTheOtherRegisters : Obligations.IntensityAboveFifteenLeavesTheOtherRegisters := by
  intro s c data hc _
  refine ⟨_, chipReceive_eq (serialWord Config.regIntensity data) hc, fun a ha => ?_⟩
  have hreg : regField { c with stage := serialWord Config.regIntensity data }.stage = Config.regIntensity := regField_serialWord _ _
  rw [latchChip_of_intensity _ hreg, chipRegister_intensity_other _ _ ha, chipRegister_stage]

end Sys2Proof.Machine
end

section
/-! PROOFS. The two encodings, read and written (30_encoding.md R80 to R91): what each row's header and word decode to. -/

namespace Sys2Proof

/-! ### Operands and payloads -/

theorem fitsPayload_iff (p : List Byte) : fitsPayload p = true ↔ p.length < 65536 := by
  rw [fitsPayload, decide_eq_true_iff, Config.payloadLimit]

theorem withPayload_of_fits {p : List Byte} (i : Instr) (h : fitsPayload p = true) : withPayload p i = .instr i := if_pos h

/-- `enabled` is the parity of field `b` (R89). -/
theorem getElem_zero_eq_odd (b : Byte) : b[0] = decide (b.toNat % 2 = 1) := Nat.testBit_zero b.toNat

theorem modeOfCode_modeCode (mode : AlignmentMode) : modeOfCode ((modeCode mode).toNat % 4) = mode := by
  cases mode <;> rfl

theorem row_of_byte (row : Fin 8) : Fin.ofNat 8 (BitVec.ofNat 8 row.val).toNat = row := by
  ext
  simp

/-! ### Rows of R88 -/

section
variable (a : BitVec 16) (b c : Byte) (p : List Byte)

theorem decode_setTextAlignment :
    decode (.command (header 0x31 a b c) p) = .instr (.setTextAlignment (modeOfCode (b.toNat % 4))) := by
  simp [decode, decodeCommand]

theorem decode_setRotate : decode (.command (header 0x34 a b c) p) = .instr (.setRotate (decide (b.toNat % 2 = 1))) := by
  simp [decode, decodeCommand, getElem_zero_eq_odd]

variable {p}

theorem decode_setText (hp : p.length < 65536) : decode (.command (header 0x32 a b c) p) = .instr (.setText p) := by
  simp [decode, decodeCommand, withPayload_of_fits _ ((fitsPayload_iff p).2 hp)]

theorem decode_setNextText (hp : p.length < 65536) : decode (.command (header 0x33 a b c) p) = .instr (.setNextText p) := by
  simp [decode, decodeCommand, withPayload_of_fits _ ((fitsPayload_iff p).2 hp)]

theorem decode_setCustomChar (hp : p.length < 65536) :
    decode (.command (header 0x41 a b c) p) = .instr (.setCustomChar a.toInt b p) := by
  simp [decode, decodeCommand, withPayload_of_fits _ ((fitsPayload_iff p).2 hp)]

end

/-- Settles O2: the rows with a mode, a parity or a payload are the lemmas above; in the others the fields are the operands. -/
theorem headerFieldsAreTheOperands : Obligations.HeaderFieldsAreTheOperands := by
  intro a b c p
  have hmode {n : Nat} (hn : b.toNat % 4 = n) :
      decode (.command (header 0x31 a b c) p) = .instr (.setTextAlignment (modeOfCode n)) :=
    hn ▸ decode_setTextAlignment a b c p
  refine ⟨?_, ?_, ?_, ?_, ?_, ?_, ?_, ?_, ?_, hmode, hmode, hmode, hmode, decode_setText a b c, decode_setNextText a b c,
    decode_setRotate a b c p, ?_, ?_, ?_, ?_, decode_setCustomChar a b c⟩
  all_goals simp [decode, decodeCommand]

/-! ### Rows of R82 to R84 -/

theorem serialWord_ne_zero {reg : Byte} (data : Byte) (h : reg ≠ 0#8) : serialWord reg data ≠ 0#16 := by
  intro h0
  have hreg := congrArg regField h0
  rw [Machine.regField_serialWord] at hreg
  exact h hreg

/-- Settles O3: the laws of serial words. -/
theorem serialWordIsRegisterAndData : Obligations.SerialWordIsRegisterAndData := fun reg data =>
  ⟨Machine.serialWord_toNat reg data, Machine.regField_serialWord reg data, Machine.dataField_serialWord reg data,
    Machine.serialWord_fields⟩

/-! ### Decoding the encoding -/

/-- A command is encoded as a header of its row of R88, which reads the operands back from the fields. -/
theorem decode_encode_of_isCommand {i : Instr} (hi : Machine.isCommand i = true) (hwf : i.wellFormed = true) :
    decode (encode i) = .instr i := by
  have rows := headerFieldsAreTheOperands
  unfold Obligations.HeaderFieldsAreTheOperands at rows
  cases i with
  | clear | initializeChain | writeRegisterAll | setIntensity | commit | setCharWidth | scrollTextRight | scrollTextLeft
  | oscillateText | drawText => simp only [encode, plainCommand, rows]
  | setPixel col row => simp only [encode, plainCommand, rows, aOperand_toInt hwf, row_of_byte]
  | setColumn | writeRegister => simp only [encode, plainCommand, rows, aOperand_toInt hwf]
  | setTextAlignment mode => rw [encode, plainCommand, decode_setTextAlignment, modeOfCode_modeCode]
  | setText text => exact decode_setText 0 0 0 ((fitsPayload_iff text).1 hwf)
  | setNextText text => exact decode_setNextText 0 0 0 ((fitsPayload_iff text).1 hwf)
  | setRotate enabled => cases enabled <;> exact decode_setRotate 0 _ 0 []
  | setCustomChar x width data =>
    obtain ⟨hx, hdata⟩ := Bool.and_eq_true_iff.1 hwf
    rw [encode, decode_setCustomChar _ _ _ ((fitsPayload_iff data).1 hdata), aOperand_toInt hx]
  | _ => cases hi

/-- A word whose register address is not 0 is not the no-op word, so its address alone decides its row. -/
theorem decode_encode_of_word {i : Instr} (hi : Machine.isCommand i = false) : decode (encode i) = .instr i := by
  cases i with
  | wNoop => rfl
  | wRow1 data | wRow2 data | wRow3 data | wRow4 data | wRow5 data | wRow6 data | wRow7 data | wRow8 data | wDecodeMode data
  | wIntensity data | wScanLimit data | wShutdown data | wDisplayTest data =>
    simp +decide [encode, decode, decodeSerial, serialWord_ne_zero]
  | _ => cases hi

/-- Settles O1: the commands by the rows of R88, the serial words by those of R82 to R84. -/
theorem decodeInvertsEncode : Obligations.DecodeInvertsEncode := by
  intro i hwf
  cases hi : Machine.isCommand i with
  | true => exact decode_encode_of_isCommand hi hwf
  | false => exact decode_encode_of_word hi

/-- Settles O4: what the decoder answers, format by format. -/
theorem decodedInstructionsAreWellFormed : Obligations.DecodedInstructionsAreWellFormed := fun _ _ => Machine.decode_wellFormed

/-- Settles O6: the decoder evaluated on each word. -/
theorem specWordsDecode : Obligations.SpecWordsDecode := by
  unfold Obligations.SpecWordsDecode
  decide

/-! ### Reserved opcodes -/

/-- The opcodes of R88. -/
def assignedOpcodes : List Nat :=
  [0x10, 0x11, 0x12, 0x20, 0x21, 0x22, 0x23, 0x24, 0x30, 0x31, 0x32, 0x33, 0x34, 0x35, 0x36, 0x37, 0x40, 0x41]

/-- The decoder's last case answers an opcode that is none of the others. -/
theorem decodeCommand_of_notMem {h : Header} (p : List Byte) (hop : (opField h).toNat ∉ assignedOpcodes) :
    decodeCommand h p = .reserved (opField h) := by
  unfold decodeCommand
  split
  case h_19 => rfl
  all_goals exact absurd (by simp [assignedOpcodes, *]) hop

/-- Settles O5: the decoder answers `reserved`, and the step goes on from the state in which the input has been taken. -/
theorem reservedOpcodeIsASilentNoOp : Obligations.ReservedOpcodeIsASilentNoOp := fun _ _ p _ hs hop =>
  Machine.step_of_fetch_reserved (Machine.fetch_of_inbox_command hs) (decodeCommand_of_notMem p hop)

/-! ### The no-op word -/

/-- Settles O33: the word is zero, which a chip holds in its stage and does not act on. -/
theorem noOpWordChangesNoRegister : Obligations.NoOpWordChangesNoRegister := by
  intro s c hc
  rw [Machine.exec_of_encode_word rfl, Machine.chipReceive_eq 0 hc, Machine.latchChip_zeroWord]

end Sys2Proof
end

section
/-! PROOFS. The framebuffer commands (40_framebuffer_ops.md): CLEAR, SET_PIXEL and SET_COLUMN one by one (R110 to R112), and the laws
of several in a row (R113). -/

namespace Sys2Proof.Machine

/-! ### Columns in range -/

theorem columnInRange_iff (s : State) (c : Int) : columnInRange s c ↔ 0 ≤ c ∧ c < 8 * (s.numDevices : Int) := by
  simp [columnInRange, displayColumns]

theorem not_columnInRange_iff (s : State) (c : Int) : ¬ columnInRange s c ↔ c < 0 ∨ 8 * (s.numDevices : Int) ≤ c := by
  rw [columnInRange_iff]
  omega

theorem columnInRange_natCast (s : State) (c : Nat) : columnInRange s c ↔ c < displayColumns s := by
  simp [columnInRange]

/-! ### The column primitives -/

section
variable {s : State} {c c' : Int}

theorem setColumnAt_of_inRange (v : Byte) (h : columnInRange s c) : setColumnAt c v s = writeColumn c.toNat v s := if_pos h

theorem setColumnAt_of_outOfRange (v : Byte) (h : ¬ columnInRange s c) : setColumnAt c v s = s := if_neg h

theorem columnInRange_setColumnAt (c c' : Int) (v : Byte) (s : State) : columnInRange (setColumnAt c v s) c' ↔ columnInRange s c' := by
  obtain ⟨-, -, -, -, -, -, -, hcols⟩ := sameButFb_fields (sameButFb_setColumnAt c v s)
  rw [columnInRange, hcols]

theorem setColumnAt_pair_of_inRange (v v' : Byte) (h : columnInRange s c) (h' : columnInRange s c') :
    setColumnAt c' v' (setColumnAt c v s) = writeColumn c'.toNat v' (writeColumn c.toNat v s) := by
  rw [setColumnAt_of_inRange v' ((columnInRange_setColumnAt c c' v s).2 h'), setColumnAt_of_inRange v h]

/-- The second of two writes to one column wins (R113 (a)). -/
theorem setColumnAt_overwrites (c : Int) (v w : Byte) (s : State) : setColumnAt c w (setColumnAt c v s) = setColumnAt c w s := by
  by_cases h : columnInRange s c
  · rw [setColumnAt_pair_of_inRange v w h h, writeColumn_twice, setColumnAt_of_inRange w h]
  · rw [setColumnAt_of_outOfRange v h]

/-- SetPixel on a column just written sets its bit in the byte written (R113 (b)). -/
theorem setPixelAt_writeColumn_same (c row : Nat) (v : Byte) (s : State) :
    setPixelAt c row (writeColumn c v s) = writeColumn c (v ||| pixelBit row) s := by
  rw [setPixelAt, readColumn_writeColumn, if_pos rfl, writeColumn_twice]

/-- SetPixel on one column reads nothing that SetPixel on another writes. -/
theorem setPixelAt_pair_of_ne {a b : Nat} (row row' : Nat) (s : State) (h : b ≠ a) :
    setPixelAt b row' (setPixelAt a row s) =
      writeColumn b (readColumn s b ||| pixelBit row') (writeColumn a (readColumn s a ||| pixelBit row) s) := by
  rw [setPixelAt, setPixelAt, readColumn_writeColumn, if_neg h]

/-- Writes to different columns commute. -/
theorem writeColumn_comm (hwf : Memory.wf s.fb = true) {a b : Nat} (hab : a ≠ b) (v w : Byte) :
    writeColumn b w (writeColumn a v s) = writeColumn a v (writeColumn b w s) := by
  simp only [writeColumn, writeCell_comm hwf hab]

/-- Two SetPixel commute: in one column their bits are joined, and in two neither reads what the other writes (R113 (c)). -/
theorem setPixelAt_comm (hwf : Memory.wf s.fb = true) (a row b row' : Nat) :
    setPixelAt b row' (setPixelAt a row s) = setPixelAt a row (setPixelAt b row' s) := by
  by_cases hab : a = b
  · subst hab
    have htwo (r r' : Nat) : setPixelAt a r' (setPixelAt a r s) = writeColumn a (readColumn s a ||| pixelBit r ||| pixelBit r') s :=
      setPixelAt_writeColumn_same _ _ _ _
    rw [htwo, htwo, BitVec.or_assoc, BitVec.or_comm (pixelBit row), ← BitVec.or_assoc]
  · rw [setPixelAt_pair_of_ne _ _ _ (Ne.symm hab), setPixelAt_pair_of_ne _ _ _ hab, writeColumn_comm hwf hab]

/-- Two SetColumn on different columns commute (R113 (c)). -/
theorem setColumnAt_comm (hwf : Memory.wf s.fb = true) (hne : c ≠ c') (v v' : Byte) :
    setColumnAt c' v' (setColumnAt c v s) = setColumnAt c v (setColumnAt c' v' s) := by
  by_cases h : columnInRange s c
  · by_cases h' : columnInRange s c'
    · have hcols : c.toNat ≠ c'.toNat := by omega
      rw [setColumnAt_pair_of_inRange v v' h h', setColumnAt_pair_of_inRange v' v h' h, writeColumn_comm hwf hcols]
    · rw [setColumnAt_of_outOfRange v' h', setColumnAt_of_outOfRange v' ((columnInRange_setColumnAt c c' v s).not.2 h')]
  · rw [setColumnAt_of_outOfRange v h, setColumnAt_of_outOfRange v ((columnInRange_setColumnAt c' c v' s).not.2 h)]

end

/-! ### Each command alone -/

theorem exec_setPixel_of_inRange {s : State} {col : Int} (row : Fin 8) (h : columnInRange s col) :
    exec (.setPixel col row) s = .next (setPixelAt col.toNat row.val s) := if_pos h

theorem exec_setPixel_of_outOfRange {s : State} {col : Int} (row : Fin 8) (h : ¬ columnInRange s col) :
    exec (.setPixel col row) s = .refused .pixelColumnOutOfRange := if_neg h

theorem exec_setColumn_eq (c : Int) (v : Byte) (s : State) : exec (.setColumn c v) s = .next (setColumnAt c v s) := rfl

theorem exec_setColumn_of_inRange {s : State} {c : Int} (v : Byte) (h : columnInRange s c) :
    exec (.setColumn c v) s = .next (writeColumn c.toNat v s) := by
  rw [exec_setColumn_eq, setColumnAt_of_inRange v h]

/-- Settles O15: the fill of R110, read cell by cell. -/
theorem clearZeroesEveryColumn : Obligations.ClearZeroesEveryColumn := by
  refine ⟨fun a b c p => ?encoding, fun s => ⟨_, rfl, fun c hc => ?inside, fun c hc => ?outside⟩⟩
  case encoding =>
    obtain ⟨hclear, -⟩ := headerFieldsAreTheOperands a b c p
    exact hclear
  case inside => exact (readCell_fillCells _ _ _ _).trans (if_pos hc)
  case outside => exact (readCell_fillCells _ _ _ _).trans (if_neg (Nat.not_lt.2 hc))

/-- Settles O16: in range the command is SetPixel, one write of the column's byte with the row's bit joined. -/
theorem setPixelSetsOneBitOfOneColumn : Obligations.SetPixelSetsOneBitOfOneColumn := by
  refine ⟨fun a b c p => ?encoding, ?inRange, ?outOfRange⟩
  case encoding =>
    obtain ⟨-, hpixel, -⟩ := headerFieldsAreTheOperands a b c p
    exact hpixel
  case inRange =>
    intro s col row h0 hn
    refine ⟨_, exec_setPixel_of_inRange row ((columnInRange_iff s col).2 ⟨h0, hn⟩),
      ⟨_, readCell_writeCell_same _ _ _, fun r => ?_⟩, fun c hc => readCell_writeCell_other _ _ hc⟩
    rw [BitVec.getLsbD_or, pixelBit_getLsbD _ _ row.isLt]
  case outOfRange => exact fun s col row h => exec_setPixel_of_outOfRange row ((not_columnInRange_iff s col).2 h)

/-- Settles O17: the command is SetColumn, which writes the one cell or drops the value. -/
theorem setColumnOverwritesOrDrops : Obligations.SetColumnOverwritesOrDrops := by
  refine ⟨fun a b c p => ?encoding, ?inRange, ?outOfRange⟩
  case encoding =>
    obtain ⟨-, -, hcolumn, -⟩ := headerFieldsAreTheOperands a b c p
    exact hcolumn
  case inRange =>
    intro s col value h0 hn
    exact ⟨_, exec_setColumn_of_inRange value ((columnInRange_iff s col).2 ⟨h0, hn⟩), readCell_writeCell_same _ _ _,
      fun c hc => readCell_writeCell_other _ _ hc⟩
  case outOfRange =>
    intro s col value h
    rw [exec_setColumn_eq, setColumnAt_of_outOfRange value ((not_columnInRange_iff s col).2 h)]

/-! ### Several commands in a row -/

theorem execAll_cons_of_next {i : Instr} {s t : State} (h : exec i s = .next t) (is : List Instr) :
    execAll (i :: is) s = execAll is t := by
  simp only [execAll, h]

theorem execAll_cons_of_refused {i : Instr} {s : State} {r : Refusal} (h : exec i s = .refused r) (is : List Instr) :
    execAll (i :: is) s = .refused r := by
  simp only [execAll, h]

theorem execAll_singleton (i : Instr) (s : State) : execAll [i] s = exec i s := by
  rw [execAll]
  cases exec i s <;> rfl

/-- A run of SET_COLUMN never stops early. -/
theorem execAll_setColumns {α : Type} (col : α → Int) (value : α → Byte) (xs : List α) (s : State) :
    execAll (xs.map fun x => .setColumn (col x) (value x)) s = .next (xs.foldl (fun t x => setColumnAt (col x) (value x) t) s) := by
  induction xs generalizing s with
  | nil => rfl
  | cons x xs ih => exact ih (setColumnAt (col x) (value x) s)

theorem execAll_setColumn_pair (c c' : Int) (v v' : Byte) (s : State) :
    execAll [.setColumn c v, .setColumn c' v'] s = .next (setColumnAt c' v' (setColumnAt c v s)) := rfl

/-- Two SET_PIXEL complete exactly when both columns are in range, for the first leaves the range as it was. -/
theorem execAll_setPixel_pair (c c' : Int) (r r' : Fin 8) (s : State) :
    execAll [.setPixel c r, .setPixel c' r'] s =
      if columnInRange s c ∧ columnInRange s c' then .next (setPixelAt c'.toNat r'.val (setPixelAt c.toNat r.val s))
      else .refused .pixelColumnOutOfRange := by
  by_cases h : columnInRange s c
  · rw [execAll_cons_of_next (exec_setPixel_of_inRange r h), execAll_singleton]
    by_cases h' : columnInRange s c'
    · rw [if_pos ⟨h, h'⟩]
      exact exec_setPixel_of_inRange r' h'
    · rw [if_neg fun hboth => h' hboth.2]
      exact exec_setPixel_of_outOfRange r' h'
  · rw [if_neg fun hboth => h hboth.1, execAll_cons_of_refused (exec_setPixel_of_outOfRange r h)]

/-- Writing every in-range column below `n` in ascending order is the fill of those cells. -/
theorem foldl_setColumnAt_range (v : Byte) {n : Nat} {s : State} (hn : n ≤ displayColumns s) :
    (List.range n).foldl (fun t (c : Nat) => setColumnAt c v t) s = { s with fb := fillCells n v s.fb } := by
  induction n with
  | zero => rfl
  | succ n ih =>
    rw [List.range_succ, List.foldl_append, ih (Nat.le_of_succ_le hn)]
    exact setColumnAt_of_inRange v ((columnInRange_natCast s n).2 hn)

/-- Settles O18: each law is the law of the column primitives, once the commands are known to complete or to be refused. -/
theorem framebufferCommandLaws : Obligations.FramebufferCommandLaws := by
  intro s hwf
  refine ⟨?lastWins, ?setBit, ?pixelsCommute, ?columnsCommute, ?clear⟩
  case lastWins =>
    intro c v w
    rw [execAll_setColumn_pair, setColumnAt_overwrites, exec_setColumn_eq]
  case setBit =>
    intro c v r h0 hn
    have hin : columnInRange s c := (columnInRange_iff s c).2 ⟨h0, hn⟩
    calc execAll [.setColumn c v, .setPixel c r] s
      _ = exec (.setPixel c r) (writeColumn c.toNat v s) := by
        rw [execAll_cons_of_next (exec_setColumn_of_inRange v hin), execAll_singleton]
      _ = .next (setPixelAt c.toNat r.val (writeColumn c.toNat v s)) := exec_setPixel_of_inRange r hin
      _ = .next (writeColumn c.toNat (v ||| pixelBit r.val) s) := by rw [setPixelAt_writeColumn_same]
      _ = exec (.setColumn c (v ||| pixelBit r.val)) s := (exec_setColumn_of_inRange _ hin).symm
  case pixelsCommute =>
    intro c c' r r'
    rw [execAll_setPixel_pair, execAll_setPixel_pair, setPixelAt_comm hwf]
    simp only [and_comm]
  case columnsCommute =>
    intro c c' v v' hne
    rw [execAll_setColumn_pair, execAll_setColumn_pair, setColumnAt_comm hwf hne]
  case clear =>
    rw [execAll_setColumns (fun c : Nat => (c : Int)) fun _ => 0]
    exact congrArg Host.Outcome.next (foldl_setColumnAt_range 0 le_rfl).symm

end Sys2Proof.Machine
end

section
/-! PROOFS. The serial commands (41_serial_transmit.md R120 to R127): the events each transmitting command appends, and what its frames
leave in the chips (20_memory.md R66, R68; 60_exceptions.md R179). -/

namespace Sys2Proof.Machine

/-! ### Register writes at one chip -/

/-- A register write whose effect on a chip the spec fixes: an address of the chip's map, and an intensity of at most 15 (R68, U4). -/
def FixedWrite (rv : Byte × Byte) : Prop :=
  (∀ c, (chipRegister c rv.1).isSome = true) ∧ (rv.1 = Config.regIntensity → rv.2.toNat ≤ 15)

/-- Which addresses are in the map is the same for every chip. -/
theorem chipRegister_isSome_congr (c c' : Chip) (a : Byte) : (chipRegister c a).isSome = (chipRegister c' a).isSome := by
  by_cases hrow : Config.regRowBase ≤ a ∧ a < Config.regRowBase + 8
  · have hlast : a.toNat < 9 := hrow.2
    have hindex : a.toNat - 1 < 8 := by omega
    rw [chipRegister_row c hrow, chipRegister_row c' hrow, Vector.getElem?_eq_getElem hindex, Vector.getElem?_eq_getElem hindex]
    rfl
  · simp only [chipRegister, if_neg hrow, apply_ite Option.isSome, Option.isSome_some]

/-- What a chip that acts on the word of a fixed write holds at each address (20_memory.md R68). -/
theorem chipRegister_latchChip_write (any c : Chip) {rv : Byte × Byte} (h : FixedWrite rv) (a : Byte) :
    chipRegister (latchChip any { c with stage := serialWord rv.1 rv.2 }) a = if a = rv.1 then some rv.2 else chipRegister c a := by
  obtain ⟨hmapped, hintensity⟩ := h
  obtain ⟨hstored, hothers⟩ := latchChip_stores any { c with stage := serialWord rv.1 rv.2 } rfl (hmapped _) hintensity
  split
  · subst a; exact hstored
  · exact hothers a ‹_›

/-- The addresses of a chip's map, the row registers first (60_exceptions.md R179). -/
def registerMap : List Byte := [0x01, 0x02, 0x03, 0x04, 0x05, 0x06, 0x07, 0x08, 0x09, 0x0A, 0x0B, 0x0C, 0x0F]

theorem fixedWrite_of_mem {rv : Byte × Byte} (haddr : rv.1 ∈ registerMap)
    (hintensity : rv.1 = Config.regIntensity → rv.2.toNat ≤ 15) : FixedWrite rv :=
  ⟨fun c => chipRegister_isSome c haddr, hintensity⟩

/-- The words are no-ops and the words of writes in `ws`. -/
def WordsOf (ws : List (Byte × Byte)) (vs : List SerialWord) : Prop := ∀ v ∈ vs, v = 0 ∨ ∃ rv ∈ ws, v = serialWord rv.1 rv.2

section
variable {ws : List (Byte × Byte)} (hfixed : ∀ rv ∈ ws, FixedWrite rv) (any : Nat → Chip)
include hfixed

/-- Over words for other addresses a register keeps its value. -/
theorem chipRegister_receiveAll_of_notMem {vs : List SerialWord} (hvs : WordsOf ws vs) {a : Byte} (ha : ∀ rv ∈ ws, rv.1 ≠ a)
    (n : Nat) (c : Chip) : chipRegister (receiveAll any n vs c) a = chipRegister c a := by
  induction vs generalizing n c with
  | nil => rfl
  | cons v vs ih =>
    obtain ⟨hv, hrest⟩ := List.forall_mem_cons.1 hvs
    rw [receiveAll, ih hrest]
    rcases hv with rfl | ⟨rv, hrv, rfl⟩
    · rw [latchChip_zeroWord, chipRegister_stage]
    · rw [chipRegister_latchChip_write _ _ (hfixed rv hrv), if_neg (ha rv hrv).symm]

/-- A register whose writes all carry one value holds it in the end, if it held it before or one of the words is such a write. -/
theorem chipRegister_receiveAll_of_mem {vs : List SerialWord} (hvs : WordsOf ws vs) {rv : Byte × Byte} (hrv : rv ∈ ws)
    (hvalue : ∀ rv' ∈ ws, rv'.1 = rv.1 → rv' = rv) (n : Nat) {c : Chip}
    (h : chipRegister c rv.1 = some rv.2 ∨ serialWord rv.1 rv.2 ∈ vs) : chipRegister (receiveAll any n vs c) rv.1 = some rv.2 := by
  induction vs generalizing n c with
  | nil => exact h.resolve_right List.not_mem_nil
  | cons v vs ih =>
    obtain ⟨hv, hrest⟩ := List.forall_mem_cons.1 hvs
    refine ih hrest (n + 1) ?_
    rcases h with hheld | hmem
    · left
      rcases hv with rfl | ⟨rv', hrv', rfl⟩
      · rw [latchChip_zeroWord, chipRegister_stage, hheld]
      · rw [chipRegister_latchChip_write _ _ (hfixed rv' hrv')]
        split
        · rw [hvalue rv' hrv' (Eq.symm ‹_›)]
        · exact hheld
    · rcases List.mem_cons.1 hmem with rfl | hlater
      · left
        rw [chipRegister_latchChip_write _ _ (hfixed rv hrv), if_pos rfl]
      · exact .inr hlater

end

/-! ### Register writes at one device of the chain -/

/-- The words of slot `k` in several frames. -/
def slotWords (k : Nat) (fs : List (List SerialWord)) : List SerialWord := fs.map fun w => (w[k]?).getD 0

/-- The frames carry to device `k` the writes `ws`, each of them at least once, and no-ops. -/
def Delivers (ws : List (Byte × Byte)) (k : Nat) (fs : List (List SerialWord)) : Prop :=
  WordsOf ws (slotWords k fs) ∧ ∀ rv ∈ ws, serialWord rv.1 rv.2 ∈ slotWords k fs

/-- Frames that carry writes at different addresses to a device leave its chip with the values written, and with its other registers as
before (20_memory.md R66, 60_exceptions.md R179). -/
theorem sendFrames_stores {s : State} {fs : List (List SerialWord)} {ws : List (Byte × Byte)} {k : Nat} {c : Chip}
    (hlen : ∀ w ∈ fs, w.length = s.numDevices) (hfixed : ∀ rv ∈ ws, FixedWrite rv) (hdistinct : (ws.map Prod.fst).Nodup)
    (hdelivers : Delivers ws k fs) (hk : k < s.numDevices) (hc : s.chain[k]? = some c) :
    ∃ c', (sendFrames fs s).chain[k]? = some c' ∧ (∀ rv ∈ ws, chipRegister c' rv.1 = some rv.2) ∧
      ∀ a, (∀ rv ∈ ws, rv.1 ≠ a) → chipRegister c' a = chipRegister c a := by
  obtain ⟨hwords, hall⟩ := hdelivers
  rw [sendFrames_eq]
  refine ⟨_, framesChain_getElem? _ _ hk hlen hc, fun rv hrv => ?_, fun a ha => ?_⟩
  · have hvalue : ∀ rv' ∈ ws, rv'.1 = rv.1 → rv' = rv := fun rv' hrv' h => List.inj_on_of_nodup_map hdistinct hrv' hrv h
    exact chipRegister_receiveAll_of_mem hfixed _ hwords hrv hvalue 0 (.inr (hall rv hrv))
  · exact chipRegister_receiveAll_of_notMem hfixed _ hwords ha 0 c

/-! ### The same writes for each device -/

/-- The frames of the writes `ws` for each device, ascending (41_serial_transmit.md R122, R125). -/
def deviceWrites (n : Nat) (ws : List (Byte × Byte)) : List (List SerialWord) :=
  (List.range n).flatMap fun d => ws.map fun rv => targetWords n d (serialWord rv.1 rv.2)

theorem mem_deviceWrites {n : Nat} {ws : List (Byte × Byte)} {w : List SerialWord} :
    w ∈ deviceWrites n ws ↔ ∃ d < n, ∃ rv ∈ ws, targetWords n d (serialWord rv.1 rv.2) = w := by
  simp only [deviceWrites, List.mem_flatMap, List.mem_range, List.mem_map]

theorem length_of_mem_deviceWrites {n : Nat} {ws : List (Byte × Byte)} : ∀ w ∈ deviceWrites n ws, w.length = n := by
  intro w hw
  obtain ⟨d, -, rv, -, rfl⟩ := mem_deviceWrites.1 hw
  exact targetWords_length _ _ _

theorem deviceWrites_length (n : Nat) (ws : List (Byte × Byte)) : (deviceWrites n ws).length = n * ws.length := by
  simp [deviceWrites, List.length_flatMap]

/-- Of the frames for each device, a device is the target of its own and sees no-ops in the others. -/
theorem deviceWrites_delivers {n k : Nat} (ws : List (Byte × Byte)) (hk : k < n) : Delivers ws k (deviceWrites n ws) := by
  have hslot (d : Nat) (w : SerialWord) : ((targetWords n d w)[k]?).getD 0 = if k = d then w else 0 := by
    rw [targetWords_getElem? w hk, Option.getD_some]
  refine ⟨fun v hv => ?_, fun rv hrv => ?_⟩
  · obtain ⟨w, hw, rfl⟩ := List.mem_map.1 hv
    obtain ⟨d, -, rv, hrv, rfl⟩ := mem_deviceWrites.1 hw
    rw [hslot]
    split
    · exact .inr ⟨rv, hrv, rfl⟩
    · exact .inl rfl
  · exact List.mem_map.2 ⟨_, mem_deviceWrites.2 ⟨k, hk, rv, hrv, rfl⟩, (hslot k _).trans (if_pos rfl)⟩

/-! ### The commands as their frames -/

section
variable {s t : State}

theorem exec_writeRegisterAll_eq_next_iff {reg v : Byte} :
    exec (.writeRegisterAll reg v) s = .next t ↔
      s.busOpen = true ∧ t = sendFrames (deviceWrites s.numDevices [(reg, v)]) s := by
  have hframes : writeRegisterEach reg v s = sendFrames (deviceWrites s.numDevices [(reg, v)]) s := by
    rw [writeRegisterEach_eq, List.map_eq_flatMap]
    rfl
  rw [exec_writeRegisterAll, execWriteRegisterAll, hframes]
  cases s.busOpen <;> simp [eq_comm]

theorem exec_commit_eq_next_iff :
    exec .commit s = .next t ↔ s.busOpen = true ∧ t = sendFrames ((List.range 8).map (muxWords s)) s := by
  cases hopen : s.busOpen with
  | false => simp [execCommit, hopen]
  | true => simp [execCommit_eq hopen, eq_comm]

/-- INITIALIZE is the pulse, the bus open and the setup writes of each device (41_serial_transmit.md R125). -/
theorem exec_initializeChain_eq (s : State) :
    exec .initializeChain s = .next (sendFrames (deviceWrites s.numDevices setupWrites) { selectPulse s with busOpen := true }) :=
  execInitializeChain_eq s

/-- SET_INTENSITY is WRITE_REGISTER_ALL of the intensity register (41_serial_transmit.md R123). -/
theorem exec_setIntensity_eq_writeRegisterAll (level : Byte) (s : State) :
    exec (.setIntensity level) s = exec (.writeRegisterAll Config.regIntensity level) s := rfl

/-- Where WRITE_REGISTER completes it is its targeted frame, whatever integer names the device. -/
theorem eq_sendFrames_of_exec_writeRegister {d : Int} {reg v : Byte} (h : exec (.writeRegister d reg v) s = .next t) :
    t = sendFrames [targetWords s.numDevices d.toNat (serialWord reg v)] s := by
  rw [exec_writeRegister, execWriteRegister] at h
  split at h
  · cases h
  · split at h <;> cases h
    exact writeRegisterAt_eq _ _ _ _

end

/-! ### The events of a command -/

/-- The events of a frame whose words are given slot by slot, slot N−1 first (30_encoding.md R81). -/
theorem frameEvents_map_range (n : Nat) (f : Nat → SerialWord) :
    frameEvents ((List.range n).map f) = .selAssert :: ((List.range n).reverse.map fun k => .word (f k)) ++ [.selDeassert] := by
  simp [frameEvents, ← List.map_reverse]

/-- A targeted frame carries the word in the target's slot and zero in every other (41_serial_transmit.md R121). -/
theorem frameEvents_targetWords (n d : Nat) (w : SerialWord) :
    frameEvents (targetWords n d w) =
      .selAssert :: ((List.range n).reverse.map fun k => .word (if k = d then w else 0)) ++ [.selDeassert] := by
  rw [targetWords_eq_map, frameEvents_map_range]

theorem flatMap_frameEvents_deviceWrites (n : Nat) (ws : List (Byte × Byte)) :
    (deviceWrites n ws).flatMap frameEvents = (List.range n).flatMap fun d => (ws.map fun rv => serialWord rv.1 rv.2).flatMap fun w =>
      .selAssert :: ((List.range n).reverse.map fun k => .word (if k = d then w else 0)) ++ [.selDeassert] := by
  simp only [deviceWrites, List.flatMap_assoc, List.flatMap_map, frameEvents_targetWords]

/-- Slot d of frame r names row register r + 1 and carries FB[8d + r] (20_memory.md R53). -/
theorem muxWords_eq (s : State) (r : Nat) :
    muxWords s r = (List.range s.numDevices).map fun d => serialWord (BitVec.ofNat 8 (r + 1)) (readColumn s (8 * d + r)) := by
  rw [Nat.add_comm r 1, BitVec.ofNat_add]
  rfl

/-- A frame of N words is N + 2 events (41_serial_transmit.md R127). -/
theorem sendFrames_tx_length {fs : List (List SerialWord)} {s : State} {n : Nat} (h : ∀ w ∈ fs, w.length = n) :
    (sendFrames fs s).tx.length = s.tx.length + fs.length * (n + 2) := by
  induction fs generalizing s with
  | nil => simp
  | cons w fs ih =>
    obtain ⟨hw, hrest⟩ := List.forall_mem_cons.1 h
    rw [sendFrames_cons, ih hrest, txFrame_eq, List.length_append, frameEvents_length, hw, List.length_cons]
    ring

/-- Settles O20: the command is its targeted frame. -/
theorem writeRegisterSendsOneFrame : Obligations.WriteRegisterSendsOneFrame := by
  refine ⟨fun s d reg v hopen hd => ?inRange, fun s d reg v hopen hd => ?outOfRange⟩
  case inRange =>
    rw [exec_writeRegister_eq_next_iff.2 ⟨hopen, hd, rfl⟩, txFrame_eq, frameEvents_targetWords]
    exact ⟨_, rfl⟩
  case outOfRange =>
    have hrange : ¬ deviceInRange s d := by simp only [deviceInRange]; omega
    rw [exec_writeRegister, execWriteRegister, if_neg (by simp [hopen]), if_neg hrange]

/-- Settles O21: the command is one write for each device, and with a device there is a frame that leaves SELECT high. -/
theorem writeRegisterAllSendsOneFramePerDevice : Obligations.WriteRegisterAllSendsOneFramePerDevice := by
  intro s reg v hopen hn
  have hsent : deviceWrites s.numDevices [(reg, v)] ≠ [] := by
    rw [← List.length_pos_iff, deviceWrites_length]
    exact Nat.mul_pos hn Nat.one_pos
  rw [exec_writeRegisterAll_eq_next_iff.2 ⟨hopen, rfl⟩, sendFrames_eq, flatMap_frameEvents_deviceWrites, if_neg hsent]
  simp only [List.map_cons, List.map_nil, List.flatMap_singleton]
  exact ⟨_, rfl⟩

/-- Settles O22: both commands write the intensity register of each device. -/
theorem setIntensityWritesTheIntensityRegisterOfAll : Obligations.SetIntensityWritesTheIntensityRegisterOfAll := by
  refine ⟨fun a b c p => ?encoding, fun s level hopen => ?effect⟩
  case encoding =>
    obtain ⟨-, -, -, -, -, -, hlevel, -⟩ := headerFieldsAreTheOperands a b c p
    exact hlevel
  case effect =>
    have hnext := (exec_writeRegisterAll_eq_next_iff (reg := Config.regIntensity) (v := level)).2 ⟨hopen, rfl⟩
    exact ⟨_, (exec_setIntensity_eq_writeRegisterAll level s).trans hnext, hnext⟩

/-- Settles O23: the pulse leaves SELECT high, and so does every frame after it. -/
theorem initializeSendsThePulseAndTheSetupFrames : Obligations.InitializeSendsThePulseAndTheSetupFrames := by
  intro s
  rw [exec_initializeChain_eq, sendFrames_eq, flatMap_frameEvents_deviceWrites, selectPulse_eq]
  simp only [ite_self]
  exact ⟨_, rfl⟩

/-- Settles O24: the command is the eight frames of `muxWords`. -/
theorem commitSendsEightFrames : Obligations.CommitSendsEightFrames := by
  intro s hopen
  have hframes : (((List.range 8).map (muxWords s)).flatMap frameEvents) = (List.range 8).flatMap fun r =>
      .selAssert :: ((List.range s.numDevices).reverse.map fun d =>
        .word (serialWord (BitVec.ofNat 8 (r + 1)) (readColumn s (8 * d + r)))) ++ [.selDeassert] := by
    simp only [List.flatMap_map, muxWords_eq, frameEvents_map_range]
  rw [exec_commit_eq_next_iff.2 ⟨hopen, rfl⟩, sendFrames_eq, hframes]
  exact ⟨_, rfl⟩

/-- Settles O25: each command is its frames, all of N words. -/
theorem transmittingCommandsAppendTheStatedNumberOfEvents : Obligations.TransmittingCommandsAppendTheStatedNumberOfEvents := by
  intro s t
  have hall (reg v : Byte) (h : exec (.writeRegisterAll reg v) s = .next t) :
      t.tx.length = s.tx.length + s.numDevices * (s.numDevices + 2) := by
    obtain ⟨-, rfl⟩ := exec_writeRegisterAll_eq_next_iff.1 h
    rw [sendFrames_tx_length length_of_mem_deviceWrites, deviceWrites_length, List.length_singleton, Nat.mul_one]
  refine ⟨fun d reg v h => ?writeRegister, hall, fun level h => ?setIntensity, fun h => ?setup, fun h => ?commit⟩
  case writeRegister =>
    rw [eq_sendFrames_of_exec_writeRegister h, sendFrames_tx_length (n := s.numDevices) (by simp), List.length_singleton, Nat.one_mul]
  case setIntensity => exact hall _ _ ((exec_setIntensity_eq_writeRegisterAll level s).symm.trans h)
  case setup =>
    rw [exec_initializeChain_eq] at h
    cases h
    rw [sendFrames_tx_length length_of_mem_deviceWrites, deviceWrites_length, selectPulse_eq]
    simp [setupWrites, Nat.mul_comm, Nat.add_assoc]
  case commit =>
    obtain ⟨-, rfl⟩ := exec_commit_eq_next_iff.1 h
    rw [sendFrames_tx_length (n := s.numDevices) (by simp), List.length_map, List.length_range]

/-! ### What a command leaves in the chips -/

/-- Settles O29: each device is delivered the one write. -/
theorem writeRegisterAllReachesEveryDevice : Obligations.WriteRegisterAllReachesEveryDevice := by
  intro s t reg v h hintensity d c hd hc hmapped
  obtain ⟨-, rfl⟩ := exec_writeRegisterAll_eq_next_iff.1 h
  have hfixed : FixedWrite (reg, v) := ⟨fun c' => (chipRegister_isSome_congr c' c reg).trans hmapped, hintensity⟩
  obtain ⟨c', hc', hstored, hothers⟩ := sendFrames_stores length_of_mem_deviceWrites (List.forall_mem_singleton.2 hfixed)
    (List.nodup_singleton _) (deviceWrites_delivers _ hd) hd hc
  exact ⟨c', hc', hstored _ (List.mem_singleton_self _), fun a ha => hothers a (List.forall_mem_singleton.2 ha.symm)⟩

theorem fixedWrite_of_mem_setupWrites : ∀ rv ∈ setupWrites, FixedWrite rv := by
  intro rv hrv
  rw [setupWrites] at hrv
  fin_cases hrv <;> exact fixedWrite_of_mem (by decide) (by decide)

/-- Settles O30: each device is delivered the five setup writes, whatever the pulse left in its chip. -/
theorem initializeConfiguresEveryChip : Obligations.InitializeConfiguresEveryChip := by
  intro s
  have hnext := exec_initializeChain_eq s
  have hlen := exec_chain_length hnext
  refine ⟨_, hnext, hlen, fun d c hd hc => ?_⟩
  have hchip : d < (selectPulse s).chain.length := by
    rw [selectPulse_eq, List.length_map, List.length_range, ← hlen]
    exact (List.getElem?_eq_some_iff.1 hc).1
  obtain ⟨c', hc', hstored, -⟩ := sendFrames_stores (s := { selectPulse s with busOpen := true }) length_of_mem_deviceWrites
    fixedWrite_of_mem_setupWrites (by decide) (deviceWrites_delivers setupWrites hd) hd (List.getElem?_eq_getElem hchip)
  obtain rfl : c' = c := Option.some.inj (hc'.symm.trans hc)
  simp only [setupWrites, List.forall_mem_cons] at hstored
  obtain ⟨hscan, hdecode, htest, hintensity, hshutdown, -⟩ := hstored
  exact ⟨Option.some.inj hscan, Option.some.inj hdecode, Option.some.inj htest, Option.some.inj hintensity, Option.some.inj hshutdown⟩

/-! ### COMMIT -/

/-- The writes COMMIT sends to device `d`: FB[8d + r] to row register r + 1 (20_memory.md R53). -/
def rowWrites (s : State) (d : Nat) : List (Byte × Byte) :=
  (List.range 8).map fun r => (BitVec.ofNat 8 (r + 1), readColumn s (8 * d + r))

theorem muxWords_delivers {s : State} {k : Nat} (hk : k < s.numDevices) :
    Delivers (rowWrites s k) k ((List.range 8).map (muxWords s)) := by
  have hslots : slotWords k ((List.range 8).map (muxWords s)) = (rowWrites s k).map fun rv => serialWord rv.1 rv.2 := by
    simp [slotWords, rowWrites, muxWords_eq, hk]
  rw [Delivers, WordsOf, hslots]
  refine ⟨fun v hv => ?_, fun rv hrv => List.mem_map_of_mem hrv⟩
  obtain ⟨rv, hrv, rfl⟩ := List.mem_map.1 hv
  exact .inr ⟨rv, hrv, rfl⟩

theorem mem_rowWrites {s : State} {d : Nat} {rv : Byte × Byte} :
    rv ∈ rowWrites s d ↔ ∃ r < 8, (BitVec.ofNat 8 (r + 1), readColumn s (8 * d + r)) = rv := by
  simp only [rowWrites, List.mem_map, List.mem_range]

theorem fixedWrite_of_mem_rowWrites {s : State} {d : Nat} : ∀ rv ∈ rowWrites s d, FixedWrite rv := by
  intro rv hrv
  obtain ⟨r, hr, rfl⟩ := mem_rowWrites.1 hrv
  have haddr : ∀ r < 8, BitVec.ofNat 8 (r + 1) ∈ registerMap ∧ BitVec.ofNat 8 (r + 1) ≠ Config.regIntensity := by decide
  exact fixedWrite_of_mem (haddr r hr).1 fun h => absurd h (haddr r hr).2

theorem rowWrites_nodup (s : State) (d : Nat) : ((rowWrites s d).map Prod.fst).Nodup := by
  have hrows : (rowWrites s d).map Prod.fst = (List.range 8).map fun r => BitVec.ofNat 8 (r + 1) := by
    simp only [rowWrites, List.map_map]; rfl
  rw [hrows]
  decide

/-- Settles O31: each device is delivered the writes of its eight row registers. -/
theorem commitLoadsTheRowRegisters : Obligations.CommitLoadsTheRowRegisters := by
  intro s hopen
  have hnext := exec_commit_eq_next_iff.2 ⟨hopen, rfl⟩
  refine ⟨_, hnext, exec_chain_length hnext, fun d c hd hc => ?_⟩
  obtain ⟨c', hc', hstored, hothers⟩ := sendFrames_stores (by simp) fixedWrite_of_mem_rowWrites (rowWrites_nodup s d)
    (muxWords_delivers hd) hd hc
  refine ⟨c', hc', fun r hr => hstored _ (mem_rowWrites.2 ⟨r, hr, rfl⟩), fun a ha => hothers a fun rv hrv => ?_⟩
  obtain ⟨r, hr, rfl⟩ := mem_rowWrites.1 hrv
  rintro rfl
  rw [BitVec.toNat_ofNat] at ha
  omega

end Sys2Proof.Machine
end

section
/-! PROOFS. The text state commands (42_text_state_ops.md R140 to R149): each command alone, and SCROLL_TEXT_LEFT and OSCILLATE_TEXT
repeated. -/

namespace Sys2Proof

/-! ### Encodings -/

section
variable (a : BitVec 16) (b c : Byte) (p : List Byte)

theorem decode_setCharWidth : decode (.command (header 0x30 a b c) p) = .instr (.setCharWidth b) := by
  simp [decode, decodeCommand]

theorem decode_setRotate_getLsbD : decode (.command (header 0x34 a b c) p) = .instr (.setRotate (b.getLsbD 0)) := by
  rw [decode_setRotate, BitVec.getLsbD_eq_getElem (by decide), getElem_zero_eq_odd]

theorem decode_scrollTextRight : decode (.command (header 0x35 a b c) p) = .instr .scrollTextRight := by
  simp [decode, decodeCommand]

theorem decode_scrollTextLeft : decode (.command (header 0x36 a b c) p) = .instr .scrollTextLeft := by
  simp [decode, decodeCommand]

theorem decode_oscillateText : decode (.command (header 0x37 a b c) p) = .instr .oscillateText := by
  simp [decode, decodeCommand]

end

namespace Machine

/-! ### Setters of the text state -/

theorem displayColumns_cast (s : State) : (displayColumns s : Int) = 8 * (s.numDevices : Int) := Nat.cast_mul 8 s.numDevices

/-- AO with its arguments in the spec's own terms (R140). -/
theorem recomputeOffset_eq (s : State) :
    recomputeOffset s = { s with
      alignmentOffset := alignmentOffsetOf s.alignmentMode (s.currentText.length * s.charWidth.toNat) (8 * s.numDevices) } := by
  rw [recomputeOffset, currentColumns_eq, displayColumns_cast]

theorem exec_setTextAlignment_eq (mode : AlignmentMode) (s : State) :
    exec (.setTextAlignment mode) s = .next { s with
      alignmentMode := mode
      alignmentOffset := alignmentOffsetOf mode (s.currentText.length * s.charWidth.toNat) (8 * s.numDevices) } := by
  rw [exec_setTextAlignment, execSetTextAlignment, recomputeOffset_eq]

theorem exec_setCharWidth_eq (width : Byte) (s : State) :
    exec (.setCharWidth width) s = .next { s with
      charWidth := width
      alignmentOffset := alignmentOffsetOf s.alignmentMode (s.currentText.length * width.toNat) (8 * s.numDevices) } := by
  rw [exec_setCharWidth, execSetCharWidth, recomputeOffset_eq]

theorem exec_setText_eq (text : List Byte) (s : State) :
    exec (.setText text) s = .next { s with
      currentText := text
      scrollCursor := 1
      alignmentOffset := alignmentOffsetOf s.alignmentMode (text.length * s.charWidth.toNat) (8 * s.numDevices) } := by
  rw [exec_setText, execSetText, recomputeOffset_eq]

/-- Settles O38: AO at each of the four modes. -/
theorem setTextAlignmentComputesTheOffset : Obligations.SetTextAlignmentComputesTheOffset :=
  ⟨decode_setTextAlignment, fun s =>
    ⟨exec_setTextAlignment_eq .left s, exec_setTextAlignment_eq .leftEnd s, exec_setTextAlignment_eq .right s,
      exec_setTextAlignment_eq .rightEnd s⟩⟩

/-- Settles O39: the offset is AO of the new width. -/
theorem setCharWidthRecomputesTheOffset : Obligations.SetCharWidthRecomputesTheOffset :=
  ⟨decode_setCharWidth, fun s width => exec_setCharWidth_eq width s⟩

/-- Settles O40: the offset is AO of the new text. -/
theorem setTextResetsTheCursorToOne : Obligations.SetTextResetsTheCursorToOne := fun s text => exec_setText_eq text s

/-- Settles O41: of the commands, the access matrix lets only two change the staged text (10_state.md R42), and a serial word changes
the chips alone. -/
theorem setNextTextStagesItsPayload : Obligations.SetNextTextStagesItsPayload := by
  refine ⟨fun a b c _ => decode_setNextText a b c, fun s text => rfl, ?onlyTwoChangeIt⟩
  intro i s t h hne
  cases hi : isCommand i with
  | true =>
    obtain ⟨-, -, -, hstaged, -⟩ := commandsWriteOnlyTheirState i s t hi h
    exact hstaged hne
  | false =>
    obtain ⟨w, hw⟩ := exec_serialWord hi
    obtain ⟨ch, rfl, -⟩ := chipReceive_next ((hw s).symm.trans h)
    exact absurd rfl hne

/-- Settles O42: the operand is stored as it is decoded. -/
theorem setRotateTakesItsOperand : Obligations.SetRotateTakesItsOperand :=
  ⟨decode_setRotate_getLsbD, fun _ _ => rfl⟩

/-! ### SCROLL_TEXT_RIGHT -/

/-- A dividend closer to 0 than the divisor is its own remainder: the quotient is 0. -/
theorem tmod_eq_self_of_abs_lt {a b : Int} (h : |a| < |b|) : a.tmod b = a := by
  have hlt : |b| * |tdiv a b| < |b| * 1 := by
    rw [← abs_mul, mul_one]
    exact (abs_mul_tdiv_le a b).trans_lt h
  have hq : tdiv a b = 0 := Int.abs_lt_one_iff.1 (lt_of_mul_lt_mul_left hlt (abs_nonneg b))
  rw [← trem_eq_tmod, trem, hq, mul_zero, sub_zero]

section
variable {s : State}

theorem exec_scrollTextRight_of_empty (htext : s.currentText.length = 0) :
    exec .scrollTextRight s = .refused .emptyText := if_pos (List.length_eq_zero_iff.1 htext)

variable {m : Int} (htext : 1 ≤ s.currentText.length) (hm : s.currentText.length * s.charWidth.toNat - 5 = m)
include htext hm

theorem exec_scrollTextRight_of_zeroDivisor (h0 : m = 0) : exec .scrollTextRight s = .refused .zeroDivisor := by
  rw [exec_scrollTextRight, execScrollTextRight, if_neg (List.ne_nil_of_length_pos htext), currentColumns_eq, hm, if_pos h0]

theorem exec_scrollTextRight_of_nonzeroDivisor (h0 : m ≠ 0) :
    exec .scrollTextRight s = .next { s with scrollCursor := (s.scrollCursor + 1).tmod m } := by
  rw [exec_scrollTextRight, execScrollTextRight, if_neg (List.ne_nil_of_length_pos htext), currentColumns_eq, hm, if_neg h0,
    trem_eq_tmod]

end

/-- Settles O43: the two checks in order, then the step. -/
theorem scrollTextRightStepsTheCursor : Obligations.ScrollTextRightStepsTheCursor :=
  ⟨decode_scrollTextRight, fun _ =>
    ⟨exec_scrollTextRight_of_empty, fun htext => exec_scrollTextRight_of_zeroDivisor htext rfl,
      fun htext => exec_scrollTextRight_of_nonzeroDivisor htext rfl⟩⟩

/-- Settles O44: the next cursor is closer to 0 than the divisor, where it is its own remainder, or it is |m|, which leaves none. -/
theorem scrollTextRightCyclesBelowItsDivisor : Obligations.ScrollTextRightCyclesBelowItsDivisor := by
  intro s m htext h0
  have hpos : 0 < |m| := abs_pos.2 h0
  have hnext : |s.scrollCursor + 1| < |m| →
      exec .scrollTextRight s = .next { s with scrollCursor := s.scrollCursor + 1 } := fun hlt => by
    rw [exec_scrollTextRight_of_nonzeroDivisor htext rfl h0, tmod_eq_self_of_abs_lt hlt]
  refine ⟨?up, ?wrap, ?climb⟩
  case up =>
    intro hcursor hlt
    exact hnext (abs_lt.2 ⟨by omega, hlt⟩)
  case wrap =>
    intro heq
    rw [exec_scrollTextRight_of_nonzeroDivisor htext rfl h0, heq, Int.tmod_eq_zero_of_dvd (self_dvd_abs m)]
  case climb =>
    intro hcursor hlt
    exact hnext (abs_lt.2 ⟨hlt, by omega⟩)

/-! ### SCROLL_TEXT_LEFT -/

section
variable {s : State}

theorem swapStagedText_of_not (h : s.scrollCursor ≠ 0 ∨ s.pendingNextText = []) : swapStagedText s = s :=
  if_neg fun ⟨hzero, hstaged⟩ => h.elim (· hzero) hstaged

theorem swapStagedText_of_staged (hzero : s.scrollCursor = 0) (hstaged : s.pendingNextText ≠ []) :
    swapStagedText s = { s with
      currentText := s.pendingNextText
      pendingNextText := []
      alignmentOffset :=
        alignmentOffsetOf s.alignmentMode (s.pendingNextText.length * s.charWidth.toNat) (8 * s.numDevices) } := by
  rw [swapStagedText, if_pos ⟨hzero, hstaged⟩, recomputeOffset_eq]

theorem exec_scrollTextLeft_of_empty (htext : s.currentText.length = 0) :
    exec .scrollTextLeft s = .refused .emptyText := if_pos (List.length_eq_zero_iff.1 htext)

variable (htext : 1 ≤ s.currentText.length) {cursor : Int}
  (hcursor : (s.scrollCursor - 1).tmod (s.currentText.length * s.charWidth.toNat + 8 * s.numDevices) = cursor)
include htext hcursor

theorem exec_scrollTextLeft_eq : exec .scrollTextLeft s = .next (swapStagedText { s with scrollCursor := cursor }) := by
  rw [exec_scrollTextLeft, execScrollTextLeft, if_neg (List.ne_nil_of_length_pos htext), currentColumns_eq, displayColumns_cast,
    trem_eq_tmod, hcursor]

theorem exec_scrollTextLeft_of_not (h : cursor ≠ 0 ∨ s.pendingNextText = []) :
    exec .scrollTextLeft s = .next { s with scrollCursor := cursor } := by
  rw [exec_scrollTextLeft_eq htext hcursor, swapStagedText_of_not h]

theorem exec_scrollTextLeft_of_staged (hzero : cursor = 0) (hstaged : s.pendingNextText ≠ []) :
    exec .scrollTextLeft s = .next { s with
      scrollCursor := 0
      currentText := s.pendingNextText
      pendingNextText := []
      alignmentOffset :=
        alignmentOffsetOf s.alignmentMode (s.pendingNextText.length * s.charWidth.toNat) (8 * s.numDevices) } := by
  rw [exec_scrollTextLeft_eq htext hcursor, hzero]
  exact congrArg Host.Outcome.next (swapStagedText_of_staged rfl hstaged)

end

/-- Settles O45: the check, then the step without and with the swap. -/
theorem scrollTextLeftStepsAndSwaps : Obligations.ScrollTextLeftStepsAndSwaps :=
  ⟨decode_scrollTextLeft, fun _ =>
    ⟨exec_scrollTextLeft_of_empty, fun htext => exec_scrollTextLeft_of_not htext rfl,
      fun htext => exec_scrollTextLeft_of_staged htext rfl⟩⟩

/-! ### One command repeated -/

section
variable {i : Instr}

theorem execAll_append_of_next {is : List Instr} {s t : State} (h : execAll is s = .next t) (js : List Instr) :
    execAll (is ++ js) s = execAll js t := by
  induction is generalizing s with
  | nil => cases h; rfl
  | cons i is ih =>
    simp only [List.cons_append, execAll] at h ⊢
    cases hi : exec i s with
    | next u => rw [hi] at h; exact ih h
    | fault f => rw [hi] at h; cases h
    | refused r => rw [hi] at h; cases h

theorem execAll_replicate_succ_of_next {k : Nat} {s t : State} (h : execAll (List.replicate k i) s = .next t) :
    execAll (List.replicate (k + 1) i) s = exec i t := by
  rw [List.replicate_succ', execAll_append_of_next h, execAll_singleton]

/-- A command that leads along a sequence of states leads to the `k`-th of them in `k` calls. -/
theorem execAll_replicate_of_orbit {f : Nat → State} {k : Nat} (h : ∀ j < k, exec i (f j) = .next (f (j + 1))) :
    execAll (List.replicate k i) (f 0) = .next (f k) := by
  induction k with
  | zero => rfl
  | succ k ih => rw [execAll_replicate_succ_of_next (ih fun j hj => h j (Nat.lt_succ_of_lt hj)), h k (Nat.lt_succ_self k)]

/-- A command that always completes from an invariant and keeps it does so any number of times. -/
theorem execAll_replicate_invariant {P : State → Prop} (h : ∀ s, P s → ∃ t, exec i s = .next t ∧ P t) {s : State} (hs : P s)
    (k : Nat) : ∃ t, execAll (List.replicate k i) s = .next t ∧ P t := by
  induction k with
  | zero => exact ⟨s, rfl, hs⟩
  | succ k ih =>
    obtain ⟨t, ht, hPt⟩ := ih
    rw [execAll_replicate_succ_of_next ht]
    exact h t hPt

end

/-! ### The cycle of SCROLL_TEXT_LEFT -/

/-- The state with the cursor `k` columns left of 0. -/
def leftOfZero (s : State) (k : Nat) : State := { s with scrollCursor := -(k : Int) }

theorem leftOfZero_zero {s : State} (hzero : s.scrollCursor = 0) : leftOfZero s 0 = s := by
  rw [leftOfZero, Nat.cast_zero, neg_zero, ← hzero]

/-- How many columns left of 0 the next cursor lies: one more, cyclically (R148 (d)). -/
theorem neg_sub_one_tmod (k m : Nat) : (-(k : Int) - 1).tmod m = -(((k + 1) % m : Nat) : Int) := by
  rw [← neg_add', Int.neg_tmod, Int.ofNat_tmod, Nat.cast_succ]

section
variable {s : State} {k r : Nat} (htext : 1 ≤ s.currentText.length)
  (hr : (k + 1) % (s.currentText.length * s.charWidth.toNat + 8 * s.numDevices) = r)
include hr

theorem leftOfZero_cursor_tmod :
    ((leftOfZero s k).scrollCursor - 1).tmod (s.currentText.length * s.charWidth.toNat + 8 * s.numDevices) = -(r : Int) := by
  rw [← hr, ← neg_sub_one_tmod]
  norm_cast

include htext

theorem exec_scrollTextLeft_leftOfZero (h : r ≠ 0 ∨ s.pendingNextText = []) :
    exec .scrollTextLeft (leftOfZero s k) = .next (leftOfZero s r) :=
  exec_scrollTextLeft_of_not (s := leftOfZero s k) htext (leftOfZero_cursor_tmod hr) (h.imp_left fun hne => by omega)

end

/-- Settles O46: the calls below the cycle's length only move the cursor left, and the call that completes the cycle lands on 0. -/
theorem scrollTextLeftReturnsToZeroOncePerCycle : Obligations.ScrollTextLeftReturnsToZeroOncePerCycle := by
  intro s hdevices htext hzero m
  have orbit : ∀ k < m, execAll (List.replicate k .scrollTextLeft) s = .next (leftOfZero s k) := by
    intro k hk
    have hstep : ∀ j < k, exec .scrollTextLeft (leftOfZero s j) = .next (leftOfZero s (j + 1)) := fun j hj =>
      exec_scrollTextLeft_leftOfZero htext (Nat.mod_eq_of_lt (show j + 1 < m by omega)) (.inl j.succ_ne_zero)
    simpa only [leftOfZero_zero hzero] using execAll_replicate_of_orbit hstep
  have hm : 0 < m := Nat.add_pos_right _ (Nat.mul_pos (by decide) hdevices)
  obtain ⟨k, hk⟩ := Nat.exists_eq_add_one.2 hm
  have hlast : execAll (List.replicate m .scrollTextLeft) s = exec .scrollTextLeft (leftOfZero s k) := by
    rw [hk]
    exact execAll_replicate_succ_of_next (orbit k (by omega))
  have hreturn : (k + 1) % m = 0 := by rw [← hk, Nat.mod_self]
  refine ⟨orbit, ?unstaged, ?staged⟩
  case unstaged =>
    intro hnone
    rw [hlast, exec_scrollTextLeft_leftOfZero htext hreturn (.inr hnone), leftOfZero_zero hzero]
  case staged =>
    intro hstaged
    rw [hlast, exec_scrollTextLeft_of_staged (s := leftOfZero s k) htext (leftOfZero_cursor_tmod hreturn) rfl hstaged, ← hzero]
    rfl

/-! ### OSCILLATE_TEXT -/

section
variable {s : State}

theorem exec_oscillateText_of_fits (h : (s.currentText.length * s.charWidth.toNat : Int) ≤ 8 * s.numDevices) :
    exec .oscillateText s = .next s := by
  rw [exec_oscillateText, execOscillateText, currentColumns_eq, displayColumns_cast, if_pos h]

theorem exec_oscillateText_of_wide (h : (8 * s.numDevices : Int) < s.currentText.length * s.charWidth.toNat) :
    exec .oscillateText s = .next { s with
      oscillationDirection :=
        nextDirection s.scrollCursor (8 * s.numDevices) (s.currentText.length * s.charWidth.toNat) s.oscillationDirection
      scrollCursor := s.scrollCursor + directionStep
        (nextDirection s.scrollCursor (8 * s.numDevices) (s.currentText.length * s.charWidth.toNat) s.oscillationDirection) } := by
  rw [exec_oscillateText, execOscillateText, currentColumns_eq, displayColumns_cast, if_neg (not_le.2 h)]

end

/-- Settles O48: `nextDirection` is the two checks in their order. -/
theorem oscillateTextBounces : Obligations.OscillateTextBounces :=
  ⟨decode_oscillateText, fun _ => ⟨exec_oscillateText_of_fits, exec_oscillateText_of_wide⟩⟩

/-- Settles O49: the state is a fixed point of the command. -/
theorem oscillationOfAFittingTextNeverMoves : Obligations.OscillationOfAFittingTextNeverMoves := fun s _ hfits =>
  execAll_replicate_of_orbit (f := fun _ => s) fun _ _ => exec_oscillateText_of_fits (mod_cast hfits)

/-- One step from between the extremes ends between them: a direction that would leave is turned by its check (R149 (d)). -/
theorem add_directionStep_between {cursor display columns : Int} (d : Direction) (hwide : display < columns)
    (hlow : display - columns ≤ cursor) (hhigh : cursor ≤ 0) :
    display - columns ≤ cursor + directionStep (nextDirection cursor display columns d) ∧
      cursor + directionStep (nextDirection cursor display columns d) ≤ 0 := by
  rw [nextDirection, turnAtRight, turnAtLeft]
  split
  case isTrue => rw [directionStep]; omega
  case isFalse hneg =>
    split
    case isTrue => rw [directionStep]; omega
    case isFalse hright => cases d <;> rw [directionStep] <;> omega

/-- The text does not fit, its left extreme is `low`, and the cursor lies between `low` and 0 (R149 (d)). -/
def BetweenExtremes (low : Int) (s : State) : Prop :=
  8 * s.numDevices - s.currentText.length * s.charWidth.toNat = low ∧ low < 0 ∧ low ≤ s.scrollCursor ∧ s.scrollCursor ≤ 0

theorem exec_oscillateText_betweenExtremes {low : Int} {s : State} (h : BetweenExtremes low s) :
    ∃ t, exec .oscillateText s = .next t ∧ BetweenExtremes low t := by
  obtain ⟨rfl, hneg, hlow, hhigh⟩ := h
  have hwide := sub_neg.1 hneg
  exact ⟨_, exec_oscillateText_of_wide hwide, rfl, hneg, add_directionStep_between s.oscillationDirection hwide hlow hhigh⟩

/-- Settles O50: lying between the extremes is an invariant of the command. -/
theorem oscillationStaysBetweenItsExtremes : Obligations.OscillationStaysBetweenItsExtremes := by
  intro s k low hneg hlow hhigh
  obtain ⟨t, ht, -, -, hbetween⟩ :=
    execAll_replicate_invariant (fun _ => exec_oscillateText_betweenExtremes) (s := s) ⟨rfl, hneg, hlow, hhigh⟩ k
  exact ⟨t, ht, hbetween⟩

end Machine
end Sys2Proof
end

section
/-! PROOFS. The render commands (43_render_ops.md R160 to R166): SET_CUSTOM_CHAR and DRAW_TEXT on either path, and the quarter turn
between the two paths. -/

namespace Sys2Proof.Machine

/-! ### The commands as their renders -/

section
variable {s t : State} {x : Int} {width : Byte} {data : List Byte}

theorem exec_setCustomChar_of_render (hlen : width.toNat ≤ data.length) (h : render x (data.take width.toNat) s = .done t) :
    exec (.setCustomChar x width data) s = .next t := by
  rw [exec_setCustomChar, execSetCustomChar, if_pos hlen, h, Rendered.state]

theorem exec_setCustomChar_of_short (hlen : data.length < width.toNat) :
    exec (.setCustomChar x width data) s = .refused .bitmapTooShort := if_neg (Nat.not_le.2 hlen)

theorem exec_drawText_of_renderText (hw : s.currentText = [] ∨ s.charWidth.toNat ≤ 8)
    (h : renderText 0 s.currentText s = .done t) : exec .drawText s = .next t := by
  rw [exec_drawText, execDrawText, if_pos hw, h, Rendered.state]

theorem exec_drawText_of_wide (htext : s.currentText ≠ []) (hw : 8 < s.charWidth.toNat) :
    exec .drawText s = .refused .glyphTooWide := if_neg (not_or.2 ⟨htext, Nat.not_le.2 hw⟩)

theorem exec_drawText_of_noText (htext : s.currentText = []) : exec .drawText s = .next s :=
  exec_drawText_of_renderText (.inl htext) (by rw [htext, renderText])

end

/-- Settles O57: the target of an in-range position is in range, so the test before the abort always passes. -/
theorem theRotatedAbortNeverFires : Obligations.TheRotatedAbortNeverFires := by
  intro base bytes s
  obtain ⟨t, hdone, -⟩ := render_done base bytes s
  exact ⟨t, hdone⟩

/-- Characters of width 0 have no glyph column to draw. -/
theorem renderText_of_noWidth {s : State} (hw : s.charWidth = 0) (i : Nat) (text : List Byte) : renderText i text s = .done s := by
  induction text generalizing i with
  | nil => rfl
  | cons code rest ih =>
    have hcolumns : (glyph s code).take s.charWidth.toNat = [] := by simp [hw]
    rw [renderText, hcolumns, render]
    exact ih (i + 1)

/-- Settles O58: no character, or characters without columns. -/
theorem drawTextOfNothingDrawsNothing : Obligations.DrawTextOfNothingDrawsNothing := by
  rintro s (htext | hw)
  · exact exec_drawText_of_noText htext
  · exact exec_drawText_of_renderText (.inr (by simp [hw])) (renderText_of_noWidth hw 0 _)

/-! ### What the columns of a bitmap and of a glyph are -/

theorem getElem?_take_eq_some_iff {data : List Byte} {w k : Nat} {b : Byte} :
    (data.take w)[k]? = some b ↔ k < w ∧ data[k]? = some b := by
  rw [List.getElem?_take, Option.ite_none_right_eq_some]

theorem take_glyph_eq_some_iff {s : State} {code b : Byte} {w k : Nat} (hw : w ≤ 8) :
    ((glyph s code).take w)[k]? = some b ↔ k < w ∧ fontByte s code k = b := by
  rw [getElem?_take_eq_some_iff]
  refine and_congr_right fun hk => ?_
  rw [glyph_getElem? s code (hk.trans_le hw), Option.some.injEq]

/-! ### The plain path -/

/-- Settles O52: `render_plain_spec` of the bitmap's first `width` bytes. -/
theorem customCharOverwritesItsColumns : Obligations.CustomCharOverwritesItsColumns := by
  refine ⟨fun s x width data hrot hlen => ?drawn, fun _ _ _ _ => exec_setCustomChar_of_short⟩
  obtain ⟨t, hdone, hsame, hcells⟩ := render_plain_spec (p := x) (bytes := data.take width.toNat) hrot
  obtain ⟨m, rfl⟩ := hsame.exists_eq
  rw [List.length_take_of_le hlen] at hcells
  refine ⟨m, exec_setCustomChar_of_render hlen hdone, fun col c b hcol hb hc hin => ?column, fun c hout => ?frame⟩
  case column =>
    have hk : ((c : Int) - x).toNat = col := by omega
    rw [hcells, if_pos ⟨by omega, by omega, hin⟩, hk]
    exact getElem?_take_eq_some_iff.2 ⟨hcol, hb⟩
  case frame =>
    refine (hcells c).trans (if_neg ?_)
    rintro ⟨hlow, hhigh, hin⟩
    rw [displayColumns] at hin
    omega

/-- Settles O54: `renderText_plain_spec` from character 0; an empty text has no character to place, whatever W is. -/
theorem drawTextPlacesEveryGlyphColumn : Obligations.DrawTextPlacesEveryGlyphColumn := by
  refine ⟨fun s hrot hw => ?drawn, fun _ => exec_drawText_of_wide⟩
  by_cases htext : s.currentText = []
  · exact ⟨s.fb, exec_drawText_of_noText htext, by simp [htext], fun _ _ => rfl⟩
  · obtain ⟨t, hdone, hsame, hcolumns, hframe⟩ :=
      renderText_plain_spec (i := 0) (text := s.currentText) hrot (hw.resolve_left htext)
    obtain ⟨m, rfl⟩ := hsame.exists_eq
    simp only [Nat.zero_add] at hcolumns hframe
    exact ⟨m, exec_drawText_of_renderText hw hdone, hcolumns, hframe⟩

/-! ### The rotated path -/

/-- The pixels of the rotated path by the position, a column of the framebuffer, of the glyph column that lights them (R162). -/
theorem rotatedLights_iff {cols : Nat} {p : Int} {bytes : List Byte} {c r : Nat} :
    RotatedLights cols p bytes c r ↔ ∃ (k : Nat) (byte : Byte) (row n : Nat), bytes[k]? = some byte ∧ row < 8 ∧
      byte.getLsbD row = true ∧ (n : Int) = p + k ∧ n < cols ∧ c = n / 8 * 8 + row ∧ r = 7 - n % 8 := by
  constructor
  · rintro ⟨k, byte, row, hbyte, hbit, hrow, hlow, hhigh, hc, hr⟩
    exact ⟨k, byte, row, (p + k).toNat, hbyte, hrow, hbit, Int.toNat_of_nonneg hlow, by omega, hc, hr⟩
  · rintro ⟨k, byte, row, n, hbyte, hrow, hbit, hn, hin, hc, hr⟩
    have hnat : (p + k).toNat = n := by omega
    exact ⟨k, byte, row, hbyte, hbit, hrow, by omega, by omega, by rw [hnat]; exact hc, by rw [hnat]; exact hr⟩

/-- Settles O53: `render_rotated_spec` of the bitmap's first `width` bytes. -/
theorem rotatedCustomCharSetsItsPixels : Obligations.RotatedCustomCharSetsItsPixels := by
  intro s x width data hrot hlen lights
  obtain ⟨t, hdone, hsame, hpixels, hframe⟩ := render_rotated_spec (p := x) (bytes := data.take width.toNat) hrot
  obtain ⟨m, rfl⟩ := hsame.exists_eq
  have hlights (c r : Nat) : RotatedLights (displayColumns s) x (data.take width.toNat) c r ↔ lights c r := by
    simp only [rotatedLights_iff, getElem?_take_eq_some_iff, and_assoc]
    rfl
  simp only [hlights] at hpixels hframe
  exact ⟨m, exec_setCustomChar_of_render hlen hdone, hpixels, hframe⟩

/-- The pixels that character `i` of a text lights, by the column of its glyph (R163). -/
theorem rotatedLights_character_iff {s : State} {i : Nat} {code : Byte} {c r : Nat} (hw : s.charWidth.toNat ≤ 8) :
    RotatedLights (displayColumns s) (textPosition s i 0) ((glyph s code).take s.charWidth.toNat) c r ↔
      ∃ col row n : Nat, col < s.charWidth.toNat ∧ row < 8 ∧ (fontByte s code col).getLsbD row = true ∧
        (n : Int) = textPosition s i col ∧ n < displayColumns s ∧ c = n / 8 * 8 + row ∧ r = 7 - n % 8 := by
  have hposition (col : Nat) : textPosition s i 0 + col = textPosition s i col := by
    simp only [textPosition, Nat.cast_zero]
    ring
  simp only [rotatedLights_iff, take_glyph_eq_some_iff hw, hposition, and_assoc, exists_and_left, exists_eq_left']

/-- Settles O55: `renderText_rotated_spec` from character 0; with W above 8 the text is empty, and no character lights anything. -/
theorem rotatedDrawTextSetsItsPixels : Obligations.RotatedDrawTextSetsItsPixels := by
  intro s hrot hw lights
  obtain ⟨t, hdone, hsame, hpixels, hframe⟩ := renderText_rotated_spec (i := 0) (text := s.currentText) hrot
  obtain ⟨m, rfl⟩ := hsame.exists_eq
  simp only [Nat.zero_add] at hpixels hframe
  have hlights (c r : Nat) : (∃ i code, s.currentText[i]? = some code ∧ RotatedLights (displayColumns s) (textPosition s i 0)
      ((glyph s code).take s.charWidth.toNat) c r) ↔ lights c r := by
    have hwidth {i : Nat} {code : Byte} (hcode : s.currentText[i]? = some code) : s.charWidth.toNat ≤ 8 :=
      hw.resolve_left fun htext => by simp [htext] at hcode
    constructor
    · rintro ⟨i, code, hcode, hlit⟩
      obtain ⟨col, row, n, hlit⟩ := (rotatedLights_character_iff (hwidth hcode)).1 hlit
      exact ⟨i, col, row, n, code, hcode, hlit⟩
    · rintro ⟨i, col, row, n, code, hcode, hlit⟩
      exact ⟨i, code, hcode, (rotatedLights_character_iff (hwidth hcode)).2 ⟨col, row, n, hlit⟩⟩
  refine ⟨m, exec_drawText_of_renderText hw hdone, fun c r => ?_, fun c hdark => ?_⟩
  · exact (hpixels c r).trans (or_congr_right (hlights c r))
  · exact hframe c fun r i code hcode hlit => hdark r ((hlights c r).1 ⟨i, code, hcode, hlit⟩)

/-! ### The quarter turn -/

/-- Bit `r` of the glyph column at framebuffer column `n` is set, for glyph columns `bytes` from position `p` on: the picture that the
two paths draw, one as it stands and the other turned (R165). -/
def GlyphBitAt (p : Int) (bytes : List Byte) (n r : Nat) : Prop :=
  ∃ (k : Nat) (byte : Byte), bytes[k]? = some byte ∧ byte.getLsbD r = true ∧ (n : Int) = p + k

theorem glyphBitAt_iff {p : Int} {bytes : List Byte} {n r : Nat} (hlow : p ≤ n) {byte : Byte}
    (hbyte : bytes[((n : Int) - p).toNat]? = some byte) : GlyphBitAt p bytes n r ↔ byte.getLsbD r = true := by
  constructor
  · rintro ⟨k, byte', hbyte', hbit, hn⟩
    obtain rfl : ((n : Int) - p).toNat = k := by omega
    rw [Option.some.inj (hbyte.symm.trans hbyte')]
    exact hbit
  · exact fun hbit => ⟨_, byte, hbyte, hbit, by omega⟩

theorem pixel_of_readCell {s : State} {c : Nat} {v : Byte} (h : readCell s.fb c = some v) (r : Nat) : pixel s c r = v.getLsbD r := by
  rw [pixel, readColumn, h, Option.getD_some]

section
variable {s : State} {p : Int} {bytes : List Byte}

/-- On a cleared framebuffer the plain path draws the glyph's bits as they stand. -/
theorem render_plain_cleared (hrot : s.rotationEnabled = false) (hclear : ∀ c, c < displayColumns s → readCell s.fb c = some 0) :
    ∃ t, render p bytes s = .done t ∧ ∀ n r, n < displayColumns s → (pixel t n r = true ↔ GlyphBitAt p bytes n r) := by
  obtain ⟨t, hdone, -, hcells⟩ := render_plain_spec (p := p) (bytes := bytes) hrot
  refine ⟨t, hdone, fun n r hn => ?_⟩
  by_cases hcovered : p ≤ n ∧ (n : Int) < p + bytes.length
  · have hk : ((n : Int) - p).toNat < bytes.length := by omega
    have hcell := (hcells n).trans (if_pos ⟨hcovered.1, hcovered.2, hn⟩)
    rw [List.getElem?_eq_getElem hk] at hcell
    rw [pixel_of_readCell hcell, glyphBitAt_iff hcovered.1 (List.getElem?_eq_getElem hk)]
  · have hcell := ((hcells n).trans (if_neg fun h => hcovered ⟨h.1, h.2.1⟩)).trans (hclear n hn)
    have hnone : ¬ GlyphBitAt p bytes n r := by
      rintro ⟨k, byte, hbyte, -, hk⟩
      obtain ⟨hlt, -⟩ := List.getElem?_eq_some_iff.1 hbyte
      omega
    simp [pixel_of_readCell hcell, hnone]

/-- Inside a device the rotated path's map is one to one: pixel (8q + r, 7 − c) is lit by bit r of the glyph column at 8q + c. -/
theorem rotatedLights_device_iff {cols q c r : Nat} (hin : 8 * q + c < cols) (hc : c < 8) (hr : r < 8) :
    RotatedLights cols p bytes (8 * q + r) (7 - c) ↔ GlyphBitAt p bytes (8 * q + c) r := by
  rw [rotatedLights_iff]
  constructor
  · rintro ⟨k, byte, row, n, hbyte, hrow, hbit, hn, -, hcolumn, hturned⟩
    obtain rfl : row = r := by omega
    obtain rfl : n = 8 * q + c := by omega
    exact ⟨k, byte, hbyte, hbit, hn⟩
  · rintro ⟨k, byte, hbyte, hbit, hn⟩
    exact ⟨k, byte, r, 8 * q + c, hbyte, hr, hbit, hn, hin, by omega, by omega⟩

/-- The rotation relation at the render primitive: each device shows the plain picture turned by a quarter (R165). That the glyph lies
inside one device is not needed here: neither path draws a glyph column outside the device of its position. -/
theorem render_quarterTurn (hclear : ∀ c, c < displayColumns s → readCell s.fb c = some 0) {q : Nat} (hq : q < s.numDevices) :
    ∃ a b, render p bytes { s with rotationEnabled := false } = .done a ∧ render p bytes { s with rotationEnabled := true } = .done b ∧
      ∀ c r, c < 8 → r < 8 → pixel b (8 * q + r) (7 - c) = pixel a (8 * q + c) r := by
  obtain ⟨a, ha, hplain⟩ := render_plain_cleared (s := { s with rotationEnabled := false }) (p := p) (bytes := bytes) rfl hclear
  obtain ⟨b, hb, -, hrotated, -⟩ := render_rotated_spec (s := { s with rotationEnabled := true }) (p := p) (bytes := bytes) rfl
  refine ⟨a, b, ha, hb, fun c r hc hr => ?_⟩
  have hcin : 8 * q + c < displayColumns s := by rw [displayColumns]; omega
  have hrin : 8 * q + r < displayColumns s := by rw [displayColumns]; omega
  have hdark : pixel { s with rotationEnabled := true } (8 * q + r) (7 - c) = false :=
    (pixel_of_readCell (hclear _ hrin) _).trans BitVec.getLsbD_zero
  rw [Bool.eq_iff_iff, hrotated, hplain _ _ hcin, hdark, ← rotatedLights_device_iff hcin hc hr]
  simp [displayColumns]

end

/-- DRAW_TEXT of one character is one render, at the position of its column 0. -/
theorem exec_drawText_of_character {s t : State} {code : Byte} (htext : s.currentText = [code]) (hw : s.charWidth.toNat ≤ 8)
    (h : render (textPosition s 0 0) ((glyph s code).take s.charWidth.toNat) s = .done t) : exec .drawText s = .next t := by
  have hbase : ((0 : Nat) : Int) * s.charWidth.toNat + s.scrollCursor + s.alignmentOffset = textPosition s 0 0 := by
    simp [textPosition]
  exact exec_drawText_of_renderText (.inr hw) (by simp only [htext, renderText, hbase, h])

/-- Settles O56: each command is one render, so the turn is that of `render_quarterTurn`. -/
theorem rotationIsAQuarterTurn : Obligations.RotationIsAQuarterTurn := by
  refine ⟨?bitmap, ?text⟩
  case bitmap =>
    intro s q x width data hclear hq hlen _ _
    obtain ⟨a, b, ha, hb, hturn⟩ := render_quarterTurn (p := x) (bytes := data.take width.toNat) hclear hq
    exact ⟨a, b, exec_setCustomChar_of_render hlen ha, exec_setCustomChar_of_render hlen hb, hturn⟩
  case text =>
    intro s q code hclear hq htext hw _ _
    obtain ⟨a, b, ha, hb, hturn⟩ :=
      render_quarterTurn (p := textPosition s 0 0) (bytes := (glyph s code).take s.charWidth.toNat) hclear hq
    exact ⟨a, b, exec_drawText_of_character htext hw ha, exec_drawText_of_character htext hw hb, hturn⟩

end Sys2Proof.Machine
end

section
/-! PROOFS. The commands raise nothing (60_exceptions.md R170): each completes or, where a precondition of R199 fails, is refused. The
one fault of the model belongs to a serial word or a loss of power at a device past the end of the chain. -/

namespace Sys2Proof.Machine

/-! ### The outcomes of a command -/

section
variable {f : Fault}

theorem next_ne_fault (t : State) : (.next t : Host.Outcome State Fault Refusal) ≠ .fault f := nofun

theorem refused_ne_fault (r : Refusal) : (.refused r : Host.Outcome State Fault Refusal) ≠ .fault f := nofun

/-- A check raises nothing when neither of its two branches does. -/
theorem ite_ne_fault {p : Prop} [Decidable p] {a b : Host.Outcome State Fault Refusal} (ha : a ≠ .fault f) (hb : b ≠ .fault f) :
    (if p then a else b) ≠ .fault f := by
  split
  · exact ha
  · exact hb

end

/-- Settles O11: the commands by the checks they make before they complete, none of which answers a fault. -/
theorem noCommandFaults : Obligations.NoCommandFaults := by
  intro i s f hi
  cases i with
  | clear | setColumn | initializeChain | setCharWidth | setTextAlignment | setText | setNextText | setRotate =>
    exact next_ne_fault _
  | oscillateText => exact ite_ne_fault (next_ne_fault _) (next_ne_fault _)
  | setPixel | drawText | setCustomChar => exact ite_ne_fault (next_ne_fault _) (refused_ne_fault _)
  | writeRegisterAll | setIntensity | commit | scrollTextLeft => exact ite_ne_fault (refused_ne_fault _) (next_ne_fault _)
  | writeRegister => exact ite_ne_fault (refused_ne_fault _) (ite_ne_fault (next_ne_fault _) (refused_ne_fault _))
  | scrollTextRight => exact ite_ne_fault (refused_ne_fault _) (ite_ne_fault (refused_ne_fault _) (next_ne_fault _))
  | _ => cases hi

end Sys2Proof.Machine
end

section
/-! PROOFS. Reset and hazards (70_reset_and_hazards.md): what construction leaves (R190, R191), the preconditions the block does not check
(R199), a text staged before the first scroll (R201), and a chip that loses power (R204). -/

namespace Sys2Proof.Machine

/-! ### A command under its precondition -/

/-- The outcome is a completion where `P` holds and a refusal where it does not. -/
def CompletesExactly (P : Prop) (o : Host.Outcome State Fault Refusal) : Prop :=
  (P → ∃ t, o = .next t) ∧ (¬ P → ∃ r, o = .refused r)

section
variable {P : Prop}

theorem completesExactly_next (h : P) (t : State) : CompletesExactly P (.next t) := ⟨fun _ => ⟨t, rfl⟩, fun hn => absurd h hn⟩

theorem completesExactly_refused (h : ¬ P) (r : Refusal) : CompletesExactly P (.refused r) :=
  ⟨fun hp => absurd hp h, fun _ => ⟨r, rfl⟩⟩

theorem completesExactly_ite {p : Prop} [Decidable p] {a b : Host.Outcome State Fault Refusal} (ha : p → CompletesExactly P a)
    (hb : ¬ p → CompletesExactly P b) : CompletesExactly P (if p then a else b) := by
  split
  · exact ha ‹_›
  · exact hb ‹_›

/-- A command that completes if its check passes and is refused if not. -/
theorem completesExactly_of_check {p : Prop} [Decidable p] (h : p ↔ P) (t : State) (r : Refusal) :
    CompletesExactly P (if p then .next t else .refused r) :=
  completesExactly_ite (fun hp => completesExactly_next (h.1 hp) t) fun hn => completesExactly_refused (fun hP => hn (h.2 hP)) r

/-- A command that begins with the test of BUS_OPEN (10_state.md R23). -/
theorem completesExactly_of_busCheck {s : State} {b : Host.Outcome State Fault Refusal} (hbus : P → s.busOpen = true)
    (hb : s.busOpen = true → CompletesExactly P b) :
    CompletesExactly P (if s.busOpen = false then .refused .busNotOpen else b) :=
  completesExactly_ite (fun hclosed => completesExactly_refused (fun hP => by simp [hbus hP] at hclosed) _)
    fun hopen => hb (Bool.eq_true_of_not_eq_false hopen)

/-- A command that begins with the test for an empty text (42_text_state_ops.md R147, R148). -/
theorem completesExactly_of_textCheck {s : State} {b : Host.Outcome State Fault Refusal} (htext : P → 1 ≤ s.currentText.length)
    (hb : 1 ≤ s.currentText.length → CompletesExactly P b) :
    CompletesExactly P (if s.currentText = [] then .refused .emptyText else b) :=
  completesExactly_ite (fun hempty => completesExactly_refused (fun hP => List.ne_nil_of_length_pos (htext hP) hempty) _)
    fun hne => hb (List.length_pos_iff.2 hne)

end

/-- The divisor of SCROLL_TEXT_RIGHT is 0 exactly at L × W = 5 (42_text_state_ops.md R147). -/
theorem currentColumns_sub_five_eq_zero_iff (s : State) :
    currentColumns s - 5 = 0 ↔ s.currentText.length * s.charWidth.toNat = 5 := by
  rw [currentColumns_eq, sub_eq_zero]
  norm_cast

theorem noText_or_narrow_iff (s : State) :
    s.currentText = [] ∨ s.charWidth.toNat ≤ 8 ↔ (1 ≤ s.currentText.length → s.charWidth.toNat ≤ 8) := by
  rw [Nat.one_le_iff_ne_zero, Ne, List.length_eq_zero_iff, or_iff_not_imp_left]

/-- Settles O12: the commands by the checks they make, each the precondition's own test. -/
theorem commandsCompleteExactlyUnderTheirPreconditions : Obligations.CommandsCompleteExactlyUnderTheirPreconditions := by
  intro i s hi
  change CompletesExactly (preconditionHolds i s) (exec i s)
  cases i with
  | clear | setColumn | initializeChain | setCharWidth | setTextAlignment | setText | setNextText | setRotate =>
    exact completesExactly_next trivial _
  | oscillateText =>
    exact completesExactly_ite (fun _ => completesExactly_next trivial _) fun _ => completesExactly_next trivial _
  | setPixel col => exact completesExactly_of_check (columnInRange_iff s col) _ _
  | setCustomChar _ width data => exact completesExactly_of_check (p := width.toNat ≤ data.length) Iff.rfl _ _
  | drawText => exact completesExactly_of_check (noText_or_narrow_iff s) _ _
  | writeRegisterAll | setIntensity | commit => exact completesExactly_of_busCheck id fun hopen => completesExactly_next hopen _
  | writeRegister =>
    exact completesExactly_of_busCheck And.left fun hopen => completesExactly_of_check (and_iff_right hopen).symm _ _
  | scrollTextLeft => exact completesExactly_of_textCheck id fun htext => completesExactly_next htext _
  | scrollTextRight =>
    have hzero := currentColumns_sub_five_eq_zero_iff s
    exact completesExactly_of_textCheck And.left fun htext => completesExactly_ite
      (fun h0 => completesExactly_refused (fun ⟨_, h5⟩ => h5 (hzero.1 h0)) _) fun h0 =>
        completesExactly_next ⟨htext, fun h5 => h0 (hzero.2 h5)⟩ _
  | _ => cases hi

/-! ### A text staged before the first scroll -/

/-- SCROLL_TEXT_LEFT with the cursor at 1 lands on 0, where a staged text swaps in (42_text_state_ops.md R148). -/
theorem exec_scrollTextLeft_of_cursorOne {s : State} (htext : 1 ≤ s.currentText.length) (hone : s.scrollCursor = 1)
    (hstaged : s.pendingNextText ≠ []) :
    ∃ t, exec .scrollTextLeft s = .next t ∧ t.currentText = s.pendingNextText ∧ t.pendingNextText = [] ∧ t.scrollCursor = 0 := by
  have hzero (m : Int) : (s.scrollCursor - 1).tmod m = 0 := by rw [hone, sub_self, Int.zero_tmod]
  exact ⟨_, exec_scrollTextLeft_of_staged htext (hzero _) rfl hstaged, rfl, rfl, rfl⟩

/-- Settles O47: SET_TEXT leaves the cursor at 1, and staging a text leaves it there (42_text_state_ops.md R143, R144). -/
theorem aStagedTextSwapsAtTheFirstScrollAfterSetText : Obligations.AStagedTextSwapsAtTheFirstScrollAfterSetText := by
  intro s text next htext hnext
  rw [execAll_cons_of_next (exec_setText s text), execAll_cons_of_next (exec_setNextText _ next), execAll_singleton]
  exact exec_scrollTextLeft_of_cursorOne (List.length_pos_iff.2 htext) rfl hnext

/-! ### A chip that loses power -/

theorem fetch_of_inbox_chipPowerLoss {s : State} {d : Nat} {rest : List Input} (hs : s.inbox = .chipPowerLoss d :: rest) :
    fetch s = .powerLoss d (takeInput rest s) := by
  simp only [fetch, hs]

/-- INITIALIZE opens the bus and keeps what COMMIT reads (41_serial_transmit.md R125). -/
theorem exec_initializeChain_frame {s t : State} (h : exec .initializeChain s = .next t) :
    t.busOpen = true ∧ t.numDevices = s.numDevices ∧ t.fb = s.fb ∧ t.draws = s.draws := by
  obtain ⟨ch, hnext⟩ := initializeSendsThePulseAndTheSetupFrames s
  cases h.symm.trans hnext
  exact ⟨rfl, rfl, rfl, rfl⟩

/-- COMMIT does not change the framebuffer (41_serial_transmit.md R126). -/
theorem exec_commit_fb {s t : State} (h : exec .commit s = .next t) : t.fb = s.fb := by
  obtain ⟨-, rfl⟩ := exec_commit_eq_next_iff.1 h
  rw [sendFrames_eq]

/-- The setup registers lie past the eight row registers of the map (60_exceptions.md R179). -/
theorem setupRegisters_eq_of_chipRegister_eq {c c' : Chip} (h : ∀ a : Byte, 8 < a.toNat → chipRegister c' a = chipRegister c a) :
    c'.scanLimit = c.scanLimit ∧ c'.decodeMode = c.decodeMode ∧ c'.displayTest = c.displayTest ∧ c'.intensity = c.intensity ∧
      c'.shutdown = c.shutdown :=
  ⟨Option.some.inj (h Config.regScanLimit (by decide)), Option.some.inj (h Config.regDecodeMode (by decide)),
    Option.some.inj (h Config.regDisplayTest (by decide)), Option.some.inj (h Config.regIntensity (by decide)),
    Option.some.inj (h Config.regShutdown (by decide))⟩

/-- Settles O60: the step is the loss of power alone; INITIALIZE sets the five setup registers, which COMMIT keeps while it loads the
rows. -/
theorem aChipThatLostPowerIsRestored : Obligations.AChipThatLostPowerIsRestored := by
  refine ⟨fun s d rest hs => ?loss, fun s => ?restored⟩
  case loss =>
    rw [step_of_fetch_powerLoss (fetch_of_inbox_chipPowerLoss hs)]
    refine ⟨fun hd => ?chained, fun hd => if_neg (Nat.not_lt.2 hd)⟩
    have hnext : losePower d (takeInput rest s) = .next _ := if_pos hd
    obtain ⟨ch, hch, hlen, hothers⟩ := losePower_next hnext
    exact ⟨ch, hnext.trans (congrArg Host.Outcome.next hch), hlen, hothers⟩
  case restored =>
    obtain ⟨t, hinit, hlen, hsetup⟩ := initializeConfiguresEveryChip s
    obtain ⟨hopen, hdevices, hfb, hdraws⟩ := exec_initializeChain_frame hinit
    obtain ⟨u, hcommit, hlen', hrows⟩ := commitLoadsTheRowRegisters t hopen
    refine ⟨u, ?_, hlen'.trans hlen, (exec_commit_fb hcommit).trans hfb, fun d c hd hc => ?_⟩
    · rw [execAll_cons_of_next hinit, execAll_singleton, hcommit]
    · have hchip : d < t.chain.length := hlen' ▸ (List.getElem?_eq_some_iff.1 hc).1
      have hafterInit := List.getElem?_eq_getElem hchip
      obtain ⟨c', hc', hloaded, hkept⟩ := hrows d _ (hdevices ▸ hd) hafterInit
      obtain rfl : c' = c := Option.some.inj (hc'.symm.trans hc)
      obtain ⟨hscan, hdecode, htest, hintensity, hshutdown⟩ := setupRegisters_eq_of_chipRegister_eq hkept
      obtain ⟨hscan', hdecode', htest', hintensity', hshutdown'⟩ := hsetup d _ hd hafterInit
      have hread (k : Nat) : readColumn t k = readColumn s k := by rw [readColumn, readColumn, hfb, hdraws]
      exact ⟨hscan.trans hscan', hdecode.trans hdecode', htest.trans htest', hintensity.trans hintensity', hshutdown.trans hshutdown',
        fun r hr => (hloaded r hr).trans (congrArg some (hread _))⟩

/-! ### What construction leaves -/

/-- Nothing is written, staged or sent yet, and the constructor's chain counts as many chips as devices (70_reset_and_hazards.md R191). -/
theorem inv_construct {n : Nat} (line : Nat) (hlow : 1 ≤ n) (hhigh : n ≤ Config.maxDevices) : (State.construct n line).Inv where
  devices  := ⟨hlow, hhigh⟩
  fbForm   := rfl
  fbRange  := rfl
  fontForm := rfl
  textLen  := Nat.zero_lt_succ _
  nextLen  := Nat.zero_lt_succ _
  offset   := rfl
  chips    := (List.length_map _).trans List.length_range
  trace    := rfl
  idleOpen := nofun
  idleSent := fun hsent => absurd rfl hsent

/-- Settles O9: reset is a construction with a legal N. -/
theorem constructionMeetsTheInvariant : Obligations.ConstructionMeetsTheInvariant :=
  ⟨fun _ line => inv_construct line, inv_construct _ (by decide) (by decide)⟩

/-- Settles O10: the values are those construction writes, and reset is a construction. -/
theorem resetLeavesTheStatedValues : Obligations.ResetLeavesTheStatedValues := by
  refine ⟨fun n line => ?values, _, _, rfl⟩
  exact ⟨rfl, rfl, readCell_nil, rfl, rfl, rfl, rfl, rfl, rfl, rfl, rfl, rfl⟩

end Sys2Proof.Machine
end
